-- ==== Sys2Proof/Word.lean ====
section
/-! DEFINITION. The plain types the whole model is written with: bytes, the 32-bit length word, and the names by which the
host tells the units of the block apart (00_scope.md R8, 10_state.md R13, 60_exceptions.md R100). -/

namespace Sys2Proof

/-- A byte: an unsigned 8-bit value (00_scope.md R8). -/
abbrev Byte := BitVec 8

/-- The 32-bit unsigned word of `run_len`, `len_acc` and a run-block's length field (LEN_BITS = 32, R6, R22, R24). -/
abbrev Word32 := BitVec 32

/-- The two kinds of unit an instance consists of (R13). -/
inductive UnitKind where
  | eu
  | du
  deriving DecidableEq, Repr

/-- A unit, named by its position: instance `inst`, Encoder Unit or Decoder Unit (R100). -/
structure UnitId where
  inst : Nat
  kind : UnitKind
  deriving DecidableEq, Repr

/-- What a reset acts on: one unit, or, at power-on, every unit of every instance (70_reset_and_hazards.md R103). -/
inductive ResetTarget where
  | one (u : UnitId)
  | powerOn
  deriving DecidableEq, Repr

end Sys2Proof
end

