-- ==== Sys2Proof/Config.lean ====
section
/-! DEFINITION. What is fixed for the hardware: the constants of 00_scope.md R6 and the two OPEN parameters of R7. -/

namespace Sys2Proof.Config

/-- SENTINEL: the escape byte that starts a run-block (R6). -/
def sentinel : Byte := 0x04

/-- THRESHOLD: the minimum length of a run that is emitted as a run-block because of its length (R6). -/
def threshold : Nat := 6

/-- LEN_BITS: the width of the run-block length field (R6). -/
def lenBits : Nat := 32

/-- MAX_RUN = 2^32 - 1: the largest length one run-block represents (R6). -/
def maxRun : Nat := 4294967295

/-- MAX_RUN as the 32-bit register value it is compared with (R22). -/
def maxRunWord : Word32 := 0xFFFFFFFF

/-- BLOCK_LEN: the number of bytes of one run-block (R6). -/
def blockLen : Nat := 6

/-- OFFSET_WIDTH: the width in bits of offsets, lengths and counts. OPEN (R7, D10): no body, so nothing can be proved of its
value (log 2). -/
opaque offsetWidth : Nat

/-- How many instances there are beyond the first. OPEN (R7, D3): no body (log 3). -/
opaque extraInstances : Nat

/-- NUM_INSTANCES, at least 1 (R7). -/
def numInstances : Nat := extraInstances + 1

end Sys2Proof.Config
end

