-- ==== Sys2Proof/Syntax.lean ====
section
/-! DEFINITION. The instructions of the block: one constructor per row of spec/opcode_table.json. The rows are wire units
(30_encoding.md R41 to R46), host commands (R50) and the internal steps and operations the rules name. `k` is the position of the
instance whose unit acts (60_exceptions.md R100); operands that the rules read from the unit's own registers are not repeated here. -/

namespace Sys2Proof

/-- One constructor per opcode-table row. -/
inductive Instr where
  /-- RUN: the wire unit `[0x04] ++ be32bytes n ++ [v]` in the stream of instance `k`'s DU (R43, R80). -/
  | run (k : Nat) (n : Word32) (v : Byte)
  /-- TRUNCATED: a sentinel at a unit boundary with only the bytes `tail` (0 to 4 of them) up to the end of the stream (R46, R89). -/
  | truncated (k : Nat) (tail : List Byte)
  /-- LIT: the wire unit of the single byte `v`, `v ≠ 0x04` (R42). -/
  | lit (k : Nat) (v : Byte)
  /-- ENCODE(x): the host starts an encode operation on instance `k`'s EU (R63). -/
  | encode (k : Nat) (x : List Byte)
  /-- DECODE(y): the host starts a decode operation on instance `k`'s DU (R74). -/
  | decode (k : Nat) (y : List Byte)
  /-- RESET: of one unit, or power-on reset of every unit (R103). -/
  | reset (t : ResetTarget)
  /-- EU.STEP: the EU's byte step (R65). -/
  | euStep (k : Nat)
  /-- EU.FINISH: the EU's finish step (R66). -/
  | euFinish (k : Nat)
  /-- RD.OPEN on the input byte `b` (R57). -/
  | rdOpen (k : Nat) (b : Byte)
  /-- RD.EXTEND on the input byte `b` (R58). -/
  | rdExtend (k : Nat) (b : Byte)
  /-- RD.CHUNK on the input byte `b` (R59). -/
  | rdChunk (k : Nat) (b : Byte)
  /-- RD.BREAK on the input byte `b` (R60). -/
  | rdBreak (k : Nat) (b : Byte)
  /-- RD.FLUSH at the end of input (R61). -/
  | rdFlush (k : Nat)
  /-- DU.LIT (R76). -/
  | duLit (k : Nat)
  /-- DU.SENT (R77). -/
  | duSent (k : Nat)
  /-- DU.LEN (R78). -/
  | duLen (k : Nat)
  /-- DU.VAL (R79). -/
  | duVal (k : Nat)
  /-- DU.FINISH_OK (R81). -/
  | duFinishOk (k : Nat)
  /-- DU.FINISH_TRUNC (R82). -/
  | duFinishTrunc (k : Nat)
  /-- fmt(n, v): the run-block formatter of instance `k`'s EU (R55). -/
  | fmt (k : Nat) (n : Word32) (v : Byte)
  deriving DecidableEq, Repr

end Sys2Proof
end

