-- ==== Sys2Proof/WellFormed.lean ====
section
/-! DEFINITION. Which terms of Instr are instructions at all (30_encoding.md R42, R46): a LIT is no sentinel, and a truncated
run-block has at most four bytes after its sentinel. Every other operand has every value of its type. -/

namespace Sys2Proof

/-- The check of 30_encoding.md R42 and R46; every field of every other row is legal at every value (R43, R46, R55). -/
def Instr.wf : Instr → Bool
  | .run _ _ _ => true
  | .truncated _ tail => decide (tail.length < 5)
  | .lit _ v => decide (v ≠ Config.sentinel)
  | .encode _ _ => true
  | .decode _ _ => true
  | .reset _ => true
  | .euStep _ => true
  | .euFinish _ => true
  | .rdOpen _ _ => true
  | .rdExtend _ _ => true
  | .rdChunk _ _ => true
  | .rdBreak _ _ => true
  | .rdFlush _ => true
  | .duLit _ => true
  | .duSent _ => true
  | .duLen _ => true
  | .duVal _ => true
  | .duFinishOk _ => true
  | .duFinishTrunc _ => true
  | .fmt _ _ _ => true

/-- Is the row a wire unit (or the truncated prefix of one): one of the three rows with a bit encoding (R50)? -/
def Instr.isWire : Instr → Bool
  | .run _ _ _ => true
  | .truncated _ _ => true
  | .lit _ _ => true
  | .encode _ _ => false
  | .decode _ _ => false
  | .reset _ => false
  | .euStep _ => false
  | .euFinish _ => false
  | .rdOpen _ _ => false
  | .rdExtend _ _ => false
  | .rdChunk _ _ => false
  | .rdBreak _ _ => false
  | .rdFlush _ => false
  | .duLit _ => false
  | .duSent _ => false
  | .duLen _ => false
  | .duVal _ => false
  | .duFinishOk _ => false
  | .duFinishTrunc _ => false
  | .fmt _ _ _ => false

end Sys2Proof
end

