-- ==== Sys2Proof/Decode.lean ====
section
/-! DEFINITION. The wire format (30_encoding.md): byte order of the length field, the decoder of one wire unit, total on any
bytes and rejecting by name, its inverse the encoder, and the decoder on a word of spec/opcode_table.json. -/

namespace Sys2Proof

/-- `be32`: four bytes, most significant first, as one 32-bit unsigned word (00_scope.md R10, 20_memory.md R31). -/
def be32 (b0 b1 b2 b3 : Byte) : Word32 :=
  BitVec.ofNat 32 (2 ^ 24 * b0.toNat + 2 ^ 16 * b1.toNat + 2 ^ 8 * b2.toNat + b3.toNat)

/-- `be32bytes(n) = [n[31:24], n[23:16], n[15:8], n[7:0]]` (R10). -/
def be32bytes (n : Word32) : List Byte :=
  [n.extractLsb' 24 8, n.extractLsb' 16 8, n.extractLsb' 8 8, n.extractLsb' 0 8]

/-- Why a byte sequence starts with no wire unit: it is empty. Every non-empty sequence starts with a LIT, a RUN or a truncated
run-block (30_encoding.md R46, R50). -/
inductive DecodeError where
  | endOfStream
  deriving DecidableEq, Repr

/-- The wire unit at the head of a stream of instance `k`, and the bytes after it (R41, R45, R46, R50). The kind is decided by
the first byte alone; the end of the list is the end of the stream. -/
def decode (k : Nat) : List Byte → Except DecodeError (Instr × List Byte)
  | [] => .error .endOfStream
  | b :: t =>
    if b = Config.sentinel then
      match t with
      | l0 :: l1 :: l2 :: l3 :: v :: rest => .ok (.run k (be32 l0 l1 l2 l3) v, rest)
      | tail => .ok (.truncated k tail, [])
    else .ok (.lit k b, t)

/-- The bytes of an instruction that has a bit encoding: RUN by the table of R43, LIT by that of R42, a truncated prefix as it
stands in the stream (R46). Host commands and internal steps have none (R50). -/
def encode : Instr → Option (List Byte)
  | .run _ n v =>
    some [Config.sentinel, n.extractLsb' 24 8, n.extractLsb' 16 8, n.extractLsb' 8 8, n.extractLsb' 0 8, v]
  | .truncated _ tail => some (Config.sentinel :: tail)
  | .lit _ v => some [v]
  | .encode _ _ => none
  | .decode _ _ => none
  | .reset _ => none
  | .euStep _ => none
  | .euFinish _ => none
  | .rdOpen _ _ => none
  | .rdExtend _ _ => none
  | .rdChunk _ _ => none
  | .rdBreak _ _ => none
  | .rdFlush _ => none
  | .duLit _ => none
  | .duSent _ => none
  | .duLen _ => none
  | .duVal _ => none
  | .duFinishOk _ => none
  | .duFinishTrunc _ => none
  | .fmt _ _ _ => none

/-- The length in bytes that the first byte of a complete wire unit announces (R45). -/
def unitLength (first : Byte) : Nat :=
  if first = Config.sentinel then Config.blockLen else 1

/-- `n` bytes of the number `w`, the least significant first. -/
def bytesFromLow : Nat → Nat → List Byte
  | 0, _ => []
  | n + 1, w => BitVec.ofNat 8 w :: bytesFromLow n (w / 256)

/-- The bytes of a word of spec/opcode_table.json in stream order. The RUN row's 48 bits are ONE big-endian word whose first
byte on the wire is W[47:40] (30_encoding.md R43); the other encoded rows are numbered from their first byte's bit 0, and the
stream ends with the last byte the row is given (log 9). -/
def tableBytes (nbits w : Nat) : List Byte :=
  if nbits = 48 then (bytesFromLow 6 w).reverse else bytesFromLow ((nbits + 7) / 8) w

/-- The instruction the decoder reads from a word of spec/opcode_table.json, in the stream of instance 0. -/
def decodeTableWord (nbits w : Nat) : Option Instr :=
  match decode 0 (tableBytes nbits w) with
  | .ok (i, _) => some i
  | .error _ => none

end Sys2Proof
end

