-- ==== Sys2Proof/Machine/State.lean ====
section
/-! DEFINITION. The architectural state of 10_state.md as plain data: the registers of each Encoder Unit and Decoder Unit, the
instances, and beside them the carried parameter OFFSET_WIDTH and the environment's agenda; the reasons a step can stop; and
the state after power-on reset (70_reset_and_hazards.md R103, R104). -/

namespace Sys2Proof.Machine

/-- `u.status` (R14). ERROR is reached by a Decoder Unit only (R90). -/
inductive Status where
  | idle
  | busy
  | done
  | error
  deriving DecidableEq, Repr

/-- `DU.phase` (R24): what the next byte of the stream is. The encodings 6 and 7, which are never reached, have no constructor
(log 12). -/
inductive Phase where
  | head
  | len0
  | len1
  | len2
  | len3
  | val
  deriving DecidableEq, Repr

/-- `DU.err_code` (R15). -/
inductive ErrCode where
  | none
  | truncated
  deriving DecidableEq, Repr

/-- The registers of an Encoder Unit (R14, R22). -/
structure Eu where
  /-- `EU.status`. -/
  status : Status
  /-- `EU.in_buf`, the latched input (R29). -/
  inBuf : List Byte
  /-- `EU.in_len`. -/
  inLen : Nat
  /-- `EU.in_off`, the unit's program counter (R17). -/
  inOff : Nat
  /-- `EU.out_buf`, append-only (R30). -/
  outBuf : List Byte
  /-- `EU.run_open`. -/
  runOpen : Bool
  /-- `EU.run_val`. -/
  runVal : Byte
  /-- `EU.run_len`. -/
  runLen : Word32
  /-- `EU.split`. -/
  split : Bool
  /-- The model's own: the bytes that a run detector operation or the formatter, run by itself, returned to its caller
  (R55, R56; log 4). -/
  ret : List Byte
  deriving DecidableEq, Repr

/-- The registers of a Decoder Unit (R14, R15, R24). -/
structure Du where
  /-- `DU.status`. -/
  status : Status
  /-- `DU.in_buf`, the latched input (R29). -/
  inBuf : List Byte
  /-- `DU.in_len`. -/
  inLen : Nat
  /-- `DU.in_off`, the unit's program counter (R17). -/
  inOff : Nat
  /-- `DU.out_buf`, append-only (R30). -/
  outBuf : List Byte
  /-- `DU.phase`. -/
  phase : Phase
  /-- `DU.len_acc`. -/
  lenAcc : Word32
  /-- `DU.blk_off`. -/
  blkOff : Nat
  /-- `DU.err_code`. -/
  errCode : ErrCode
  /-- `DU.err_offset`. -/
  errOffset : Nat
  deriving DecidableEq, Repr

/-- One codec instance: one Encoder Unit and one Decoder Unit (R13). -/
structure Inst where
  eu : Eu
  du : Du
  deriving DecidableEq, Repr

/-- A host command (70_reset_and_hazards.md R106). -/
inductive HostCommand where
  | encode (k : Nat) (x : List Byte)
  | decode (k : Nat) (y : List Byte)
  | reset (t : ResetTarget)
  deriving DecidableEq, Repr

/-- What the environment does next (log 1). -/
inductive Move where
  /-- The host issues a command. -/
  | host (c : HostCommand)
  /-- The unit `u` is given a turn: it takes its one enabled step, if it has one (R64, R75). -/
  | turn (u : UnitId)
  /-- The Decoder Unit of instance `k` is given the turns of one whole wire unit, with no other move between them (R80; log 5). -/
  | wireTurn (k : Nat)
  deriving DecidableEq, Repr

/-- Everything the spec gives the machine (R13, R18). -/
structure State where
  /-- The parameter OFFSET_WIDTH (R7): configuration that no step writes, carried as data (log 2). -/
  offsetWidth : Nat
  /-- The instances, by position; their number is NUM_INSTANCES (R7, R13; log 3). -/
  insts : List Inst
  /-- The environment's next moves, in order: the model's own field (log 1). -/
  agenda : List Move
  deriving DecidableEq, Repr

/-- Why a step stops with a fault. -/
inductive Fault where
  /-- A byte step of a unit whose `in_buf` holds no byte at `in_off`: InRead is defined only inside the input (R29). Raised by
  EU.STEP, DU.LIT, DU.SENT, DU.LEN, DU.VAL and by a wire turn, and only where `in_len` exceeds the length of `in_buf`, which no
  run from reset reaches. Safe: the model stops where the spec defines nothing. -/
  | inReadUndefined
  deriving DecidableEq, Repr

/-- Why an instruction is refused: it has no transition. -/
inductive Refusal where
  /-- The instruction has no meaning in the model yet. Raised by exec alone. Safe. -/
  | notModelled (mnemonic : String)
  /-- The position names no instance of the block (R100). Raised by every instruction that acts on one instance. Safe. -/
  | noSuchInstance
  /-- A start command while the unit is BUSY is refused (R63, R74, R108; D11). Raised by ENCODE and DECODE. Safe. -/
  | startWhileBusy
  /-- The input is longer than 2^OFFSET_WIDTH - 1 (R63, R74; D10). Raised by ENCODE and DECODE. Safe. -/
  | inputTooLong
  /-- The output would be longer than 2^OFFSET_WIDTH - 1 (R63, R74; D10). Raised by ENCODE and DECODE. Safe. -/
  | outputTooLong
  /-- The step or operation is not the one its unit's registers select: the rules give it no transition there (R56, R64, R75; log 7).
  Raised by every internal step and wire unit. Safe. -/
  | notSelected
  /-- The operand makes the term no wire unit: a LIT of 0x04, or more than four bytes after a truncated sentinel (R42, R46).
  Raised by LIT and TRUNCATED. Safe. -/
  | notAWireUnit
  deriving DecidableEq, Repr

/-- The reset values of an Encoder Unit (R14, R22). -/
def Eu.reset : Eu :=
  { status := .idle, inBuf := [], inLen := 0, inOff := 0, outBuf := [],
    runOpen := false, runVal := 0x00, runLen := 0, split := false, ret := [] }

/-- The reset values of a Decoder Unit (R14, R15, R24). -/
def Du.reset : Du :=
  { status := .idle, inBuf := [], inLen := 0, inOff := 0, outBuf := [],
    phase := .head, lenAcc := 0, blkOff := 0, errCode := .none, errOffset := 0 }

/-- An instance after reset. -/
def Inst.reset : Inst := { eu := Eu.reset, du := Du.reset }

/-- The machine right after power-on reset (R103, R104): every unit of every instance at its reset values, nothing on the agenda.
The number of instances and OFFSET_WIDTH are the OPEN parameters of Config. -/
def State.reset : State :=
  { offsetWidth := Config.offsetWidth,
    insts := Inst.reset :: List.replicate Config.extraInstances Inst.reset,
    agenda := [] }

end Sys2Proof.Machine
end

