-- ==== Sys2Proof/Machine/Operands.lean ====
section
/-! DEFINITION. Operand reads: the input read primitive (20_memory.md R29), the rest of a Decoder Unit's stream, and the length
limit of OFFSET_WIDTH (00_scope.md R7). The length field's assembly, be32 (R44), stands in Decode.lean. -/

namespace Sys2Proof.Machine

/-- `InRead(i) = in_buf[i]`, defined only inside the input (R29). -/
def inRead (buf : List Byte) (i : Nat) : Option Byte := buf[i]?

/-- The part of a Decoder Unit's stream from `in_off` to the end of its input. -/
def Du.stream (d : Du) : List Byte := (d.inBuf.take d.inLen).drop d.inOff

/-- The largest length OFFSET_WIDTH bits hold: 2^OFFSET_WIDTH - 1 (R7). -/
def maxLength (offsetWidth : Nat) : Nat := 2 ^ offsetWidth - 1

/-- Phase index k of `LENk` (R24): which length byte comes next. -/
def Phase.lenIndex : Phase → Option Nat
  | .head => none
  | .len0 => some 0
  | .len1 => some 1
  | .len2 => some 2
  | .len3 => some 3
  | .val => none

/-- The phase after a length byte: `(k < 3) ? LEN(k+1) : VAL` (R78). -/
def Phase.afterLen : Phase → Phase
  | .head => .head
  | .len0 => .len1
  | .len1 => .len2
  | .len2 => .len3
  | .len3 => .val
  | .val => .val

end Sys2Proof.Machine
end

