-- ==== Sys2Proof/Machine/Reference.lean ====
section
/-! DEFINITION. The pure functions of the spec: runs and their emission (40_run_detector_formatter.md R51 to R55), the reference
functions `encode` (41_encoder.md R67) and `decode` (42_decoder.md R83), what a DECODE operation leaves in `out_buf` (R82, R84),
and the parse of a wire stream into units (30_encoding.md R41). -/

namespace Sys2Proof.Machine

/-- The run-block formatter `fmt(n, v) = [0x04] ++ be32bytes(n) ++ [v]` (R55). -/
def fmt (n : Word32) (v : Byte) : List Byte := [Config.sentinel] ++ be32bytes n ++ [v]

/-- `emit_run(v, L, s)`: one run-block if the run was split, or reaches THRESHOLD, or is of the sentinel value; else L copies (R52). -/
def emitRun (v : Byte) (L : Word32) (s : Bool) : List Byte :=
  if s = true ∨ Config.threshold ≤ L.toNat ∨ v = Config.sentinel then fmt L v
  else List.replicate L.toNat v

/-- `q = (L - 1) div MAX_RUN`: how many full run-blocks precede the last part of a run of `L` bytes (R53). -/
def fullBlocks (L : Nat) : Nat := (L - 1) / Config.maxRun

/-- `r = L - MAX_RUN * q`: the length of the last part (R53). -/
def remainder (L : Nat) : Nat := L - Config.maxRun * fullBlocks L

/-- `split_run(v, L)`: the full run-blocks first, then the remainder as a run-block (R53). -/
def splitRun (v : Byte) (L : Nat) : List Byte :=
  (List.replicate (fullBlocks L) (fmt Config.maxRunWord v)).flatten ++ fmt (BitVec.ofNat 32 (remainder L)) v

/-- `seg(v, L)`: what a whole run is emitted as (R54). -/
def seg (v : Byte) (L : Nat) : List Byte :=
  if L ≤ Config.maxRun then emitRun v (BitVec.ofNat 32 L) false else splitRun v L

/-- The runs of a sequence whose first run has so far `n` bytes of value `v`. -/
def runsFrom (v : Byte) (n : Nat) : List Byte → List (Byte × Nat)
  | [] => [(v, n)]
  | b :: t => if b = v then runsFrom v (n + 1) t else (v, n) :: runsFrom b 1 t

/-- `runs(x)`: the maximal runs of `x` from left to right as (value, length) (R51). -/
def runs : List Byte → List (Byte × Nat)
  | [] => []
  | b :: t => runsFrom b 1 t

/-- The reference function of the encoder, `encode(x)` (R67). -/
def refEncode (x : List Byte) : List Byte := ((runs x).map fun r => seg r.1 r.2).flatten

/-- What `decode` returns: `Ok(x)`, or `Err(TRUNCATED, i)` (R83). There is no other error kind. -/
inductive DecodeResult where
  | ok (x : List Byte)
  | truncated (i : Nat)
  deriving DecidableEq, Repr

/-- `dec(y, i, acc)` of R83, on the part of `y` from index `i` on. -/
def dec (i : Nat) (acc : List Byte) : List Byte → DecodeResult
  | [] => .ok acc
  | b :: t =>
    if b = Config.sentinel then
      match t with
      | l0 :: l1 :: l2 :: l3 :: v :: rest =>
        dec (i + 6) (acc ++ List.replicate (be32 l0 l1 l2 l3).toNat v) rest
      | _ => .truncated i
    else dec (i + 1) (acc ++ [b]) t

/-- The reference function of the decoder, `decode(y)` (R83). -/
def refDecode (y : List Byte) : DecodeResult := dec 0 [] y

/-- What a DECODE of `y` leaves in `out_buf`: `decode(y)` when it is Ok, else the decoding of the units before the truncated one
(R74, R82, R84). -/
def producedOutput (y : List Byte) : List Byte :=
  match refDecode y with
  | .ok x => x
  | .truncated i =>
    match refDecode (y.take i) with
    | .ok x => x
    | .truncated _ => []

/-- The length of `producedOutput y`, added up without building the output (Laws/Wire.lean, producedLength_eq). -/
def producedLength : List Byte → Nat
  | [] => 0
  | b :: t =>
    if b = Config.sentinel then
      match t with
      | l0 :: l1 :: l2 :: l3 :: _ :: rest => (be32 l0 l1 l2 l3).toNat + producedLength rest
      | _ => 0
    else 1 + producedLength t

/-- The parse of a complete wire stream of instance `k` into its units, or none where it ends inside a run-block (R41, R45, R46). -/
def parseUnits (k : Nat) : List Byte → Option (List Instr)
  | [] => some []
  | b :: t =>
    if b = Config.sentinel then
      match t with
      | l0 :: l1 :: l2 :: l3 :: v :: rest =>
        (parseUnits k rest).map fun us => .run k (be32 l0 l1 l2 l3) v :: us
      | _ => none
    else (parseUnits k t).map fun us => .lit k b :: us

/-- A wire stream is canonical if the encoder emits it for some input (R70). -/
def Canonical (y : List Byte) : Prop := ∃ x, y = refEncode x

end Sys2Proof.Machine
end

