-- ==== Sys2Proof/Machine/Flags.lean ====
section
/-! DEFINITION. The status indications. The block has no condition codes (10_state.md R19): what it has is `status` and the
Decoder Unit's error record, their encodings (R14, R15, R24), the outputs the host reads (R21), and the result of an operation
as the host must read it (42_decoder.md R85, 70_reset_and_hazards.md R107). -/

namespace Sys2Proof.Machine

/-- The encoding of `status`: IDLE = 0, BUSY = 1, DONE = 2, ERROR = 3 (R14). -/
def Status.code : Status → BitVec 2
  | .idle => 0
  | .busy => 1
  | .done => 2
  | .error => 3

/-- The encoding of `err_code`: NONE = 0, TRUNCATED = 1 (R15, 60_exceptions.md R89). -/
def ErrCode.code : ErrCode → BitVec 1
  | .none => 0
  | .truncated => 1

/-- The encoding of `phase`: HEAD = 0, LEN0..LEN3 = 1..4, VAL = 5 (R24). -/
def Phase.code : Phase → BitVec 3
  | .head => 0
  | .len0 => 1
  | .len1 => 2
  | .len2 => 3
  | .len3 => 4
  | .val => 5

/-- The outputs the host reads of an Encoder Unit, at any time and without side effect (R21, 20_memory.md R33). -/
structure EuOutputs where
  status : BitVec 2
  inCount : Nat
  outCount : Nat
  outData : List Byte
  deriving DecidableEq, Repr

/-- The outputs the host reads of a Decoder Unit (R21). -/
structure DuOutputs where
  status : BitVec 2
  inCount : Nat
  outCount : Nat
  outData : List Byte
  errCode : BitVec 1
  errOffset : Nat
  deriving DecidableEq, Repr

/-- STATUS, IN_COUNT, OUT_COUNT, OUT_DATA of an Encoder Unit (R21). -/
def Eu.outputs (e : Eu) : EuOutputs :=
  { status := e.status.code, inCount := e.inOff, outCount := e.outBuf.length, outData := e.outBuf }

/-- STATUS, IN_COUNT, OUT_COUNT, OUT_DATA, ERR_CODE, ERR_OFFSET of a Decoder Unit (R21). -/
def Du.outputs (d : Du) : DuOutputs :=
  { status := d.status.code, inCount := d.inOff, outCount := d.outBuf.length, outData := d.outBuf,
    errCode := d.errCode.code, errOffset := d.errOffset }

/-- The result of an ENCODE operation: `out_buf` once DONE; before that, and after a reset, there is none (R107). -/
def Eu.result (e : Eu) : Option (List Byte) :=
  match e.status with
  | .idle => none
  | .busy => none
  | .done => some e.outBuf
  | .error => none

/-- The result of a DECODE operation: `Ok(out_buf)` at DONE, `Err(TRUNCATED, err_offset)` at ERROR, else none (R85, R107). -/
def Du.result (d : Du) : Option DecodeResult :=
  match d.status with
  | .idle => none
  | .busy => none
  | .done => some (.ok d.outBuf)
  | .error => some (.truncated d.errOffset)

end Sys2Proof.Machine
end

