-- ==== Sys2Proof/Machine/Ops.lean ====
section
/-! DEFINITION. The named operations every meaning is written with: reaching a unit of an instance, the output write primitive
(20_memory.md R30), the byte and finish guards of a unit's steps (41_encoder.md R64, 42_decoder.md R75), starting an operation
(R63, R74) with its admission, raising TRUNCATED (60_exceptions.md R92), and reset (70_reset_and_hazards.md R103). -/

namespace Sys2Proof.Machine

/-- The three outcomes of acting on one unit. -/
abbrev Outcome (α : Type) := Host.Outcome α Fault Refusal

/-- The state with the Encoder Unit of instance `k` replaced; every other unit as it was (R13). -/
def State.setEu (k : Nat) (e : Eu) (s : State) : State :=
  { s with insts := s.insts.modify k fun n => { n with eu := e } }

/-- The state with the Decoder Unit of instance `k` replaced. -/
def State.setDu (k : Nat) (d : Du) (s : State) : State :=
  { s with insts := s.insts.modify k fun n => { n with du := d } }

/-- The Encoder Unit of instance `k`, if the block has that instance. -/
def State.eu? (k : Nat) (s : State) : Option Eu := (s.insts[k]?).map Inst.eu

/-- The Decoder Unit of instance `k`, if the block has that instance. -/
def State.du? (k : Nat) (s : State) : Option Du := (s.insts[k]?).map Inst.du

/-- Act on the Encoder Unit of instance `k` and on nothing else (R13, R36). -/
def withEu (k : Nat) (s : State) (f : Eu → Outcome Eu) : Outcome State :=
  match s.eu? k with
  | none => .refused .noSuchInstance
  | some e =>
    match f e with
    | .next e' => .next (s.setEu k e')
    | .fault r => .fault r
    | .refused r => .refused r

/-- Act on the Decoder Unit of instance `k` and on nothing else (R13, R36). -/
def withDu (k : Nat) (s : State) (f : Du → Outcome Du) : Outcome State :=
  match s.du? k with
  | none => .refused .noSuchInstance
  | some d =>
    match f d with
    | .next d' => .next (s.setDu k d')
    | .fault r => .fault r
    | .refused r => .refused r

/-- `OutAppend(s)` of an Encoder Unit (R30). -/
def Eu.outAppend (bs : List Byte) (e : Eu) : Eu := { e with outBuf := e.outBuf ++ bs }

/-- `OutAppend(s)` of a Decoder Unit (R30). -/
def Du.outAppend (bs : List Byte) (d : Du) : Du := { d with outBuf := d.outBuf ++ bs }

/-- `in_off <- in_off + n`: the only update of a unit's program counter, by 1 in a byte step (R17). -/
def Eu.advance (n : Nat) (e : Eu) : Eu := { e with inOff := e.inOff + n }

/-- `in_off <- in_off + n` of a Decoder Unit: by 1 in a byte step (R17), by a whole unit's length in a wire unit (R80). -/
def Du.advance (n : Nat) (d : Du) : Du := { d with inOff := d.inOff + n }

/-- An Encoder Unit's byte step acts on `b = InRead(in_off)` and is enabled when BUSY with input left (R64, R65). -/
def Eu.onByte (e : Eu) (f : Byte → Outcome Eu) : Outcome Eu :=
  if e.status = .busy ∧ e.inOff < e.inLen then
    match inRead e.inBuf e.inOff with
    | some b => f b
    | none => .fault .inReadUndefined
  else .refused .notSelected

/-- A Decoder Unit's byte step acts on `b = InRead(in_off)` and is enabled when BUSY with input left (R75). -/
def Du.onByte (d : Du) (f : Byte → Outcome Du) : Outcome Du :=
  if d.status = .busy ∧ d.inOff < d.inLen then
    match inRead d.inBuf d.inOff with
    | some b => f b
    | none => .fault .inReadUndefined
  else .refused .notSelected

/-- What ENCODE(x) leaves in an Encoder Unit: the input latched, everything else cleared, BUSY (R63). -/
def Eu.start (x : List Byte) : Eu :=
  { Eu.reset with inBuf := x, inLen := x.length, status := .busy }

/-- What DECODE(y) leaves in a Decoder Unit: the input latched, everything else cleared, BUSY (R74). -/
def Du.start (y : List Byte) : Du :=
  { Du.reset with inBuf := y, inLen := y.length, status := .busy }

/-- The admission of a start command: not while BUSY, and the input's and the output's length within 2^OFFSET_WIDTH - 1
(R63, R74, R91; D10, D11). `none` admits. -/
def startRefusal (offsetWidth : Nat) (status : Status) (inputLength outputLength : Nat) : Option Refusal :=
  if status = .busy then some .startWhileBusy
  else if maxLength offsetWidth < inputLength then some .inputTooLong
  else if maxLength offsetWidth < outputLength then some .outputTooLong
  else none

/-- Taking the one exception, `raise TRUNCATED(i)`, in one step (60_exceptions.md R89, R92). The input, `in_off` and `out_buf`
stay. There is no return from it: ERROR is left by `Du.start` or `Du.reset` alone (R93). -/
def Du.raiseTruncated (i : Nat) (d : Du) : Du :=
  { d with errCode := .truncated, errOffset := i, phase := .head, lenAcc := 0, status := .error }

/-- Power-on reset: every unit of every instance at its reset values; the parameters and the agenda are not the block's
registers and stay (R103; log 14). -/
def State.powerOn (s : State) : State := { s with insts := s.insts.map fun _ => Inst.reset }

end Sys2Proof.Machine
end

