-- ==== Sys2Proof/Machine/DecoderUnit.lean ====
section
/-! DEFINITION. The Decoder Unit's command, its four byte steps and its two finish steps (42_decoder.md R74 to R82). -/

namespace Sys2Proof.Machine

/-- DECODE(y): admitted when the unit is not BUSY and both lengths fit; then latches `y`, clears and sets BUSY (R74). -/
def execDecode (k : Nat) (y : List Byte) (s : State) : Outcome State :=
  withDu k s fun d =>
    match startRefusal s.offsetWidth d.status y.length (producedLength y) with
    | some r => .refused r
    | none => .next (Du.start y)

/-- DU.LIT: a byte other than the sentinel at a unit boundary is appended (R76). -/
def Du.litStep (d : Du) : Outcome Du :=
  d.onByte fun b =>
    if d.phase = .head ∧ b ≠ Config.sentinel then .next ((d.outAppend [b]).advance 1)
    else .refused .notSelected

/-- DU.SENT: a sentinel at a unit boundary starts a RUN unit (R77). -/
def Du.sentStep (d : Du) : Outcome Du :=
  d.onByte fun b =>
    if d.phase = .head ∧ b = Config.sentinel then
      .next ({ d with blkOff := d.inOff, lenAcc := 0, phase := .len0 }.advance 1)
    else .refused .notSelected

/-- DU.LEN: accumulate one length byte, most significant first (R78). -/
def Du.lenStep (d : Du) : Outcome Du :=
  d.onByte fun b =>
    match d.phase.lenIndex with
    | some _ =>
      .next ({ d with lenAcc := d.lenAcc * 256 + b.setWidth 32, phase := d.phase.afterLen }.advance 1)
    | none => .refused .notSelected

/-- DU.VAL: the value byte completes the RUN unit, which is expanded in this one step (R79). -/
def Du.valStep (d : Du) : Outcome Du :=
  d.onByte fun b =>
    if d.phase = .val then
      .next ({ d.outAppend (List.replicate d.lenAcc.toNat b) with lenAcc := 0, phase := .head }.advance 1)
    else .refused .notSelected

/-- DU.FINISH_OK: the input ended at a unit boundary (R81). -/
def Du.finishOkStep (d : Du) : Outcome Du :=
  if d.status = .busy ∧ d.inOff = d.inLen ∧ d.phase = .head then .next { d with status := .done }
  else .refused .notSelected

/-- DU.FINISH_TRUNC: the input ended inside a RUN unit: `raise TRUNCATED(blk_off)` (R82). -/
def Du.finishTruncStep (d : Du) : Outcome Du :=
  if d.status = .busy ∧ d.inOff = d.inLen ∧ d.phase ≠ .head then .next (d.raiseTruncated d.blkOff)
  else .refused .notSelected

/-- DU.LIT (R76). -/
def execDuLit (k : Nat) (s : State) : Outcome State := withDu k s Du.litStep

/-- DU.SENT (R77). -/
def execDuSent (k : Nat) (s : State) : Outcome State := withDu k s Du.sentStep

/-- DU.LEN (R78). -/
def execDuLen (k : Nat) (s : State) : Outcome State := withDu k s Du.lenStep

/-- DU.VAL (R79). -/
def execDuVal (k : Nat) (s : State) : Outcome State := withDu k s Du.valStep

/-- DU.FINISH_OK (R81). -/
def execDuFinishOk (k : Nat) (s : State) : Outcome State := withDu k s Du.finishOkStep

/-- DU.FINISH_TRUNC (R82). -/
def execDuFinishTrunc (k : Nat) (s : State) : Outcome State := withDu k s Du.finishTruncStep

end Sys2Proof.Machine
end

