-- ==== Sys2Proof/Machine/RunDetector.lean ====
section
/-! DEFINITION. The run detector's five operations and the run-block formatter as the opcode table's rows
(40_run_detector_formatter.md R55 to R61). Each operation writes the detector's registers and RETURNS the bytes to emit; its
caller appends them (R56). A row run by itself leaves the returned bytes in `ret` (log 4). -/

namespace Sys2Proof.Machine

/-- RD.OPEN is selected: no run is open (R56). -/
abbrev Eu.selectsOpen (e : Eu) : Prop := e.runOpen = false

/-- RD.EXTEND is selected: the byte continues the open run and its length still fits (R56). -/
abbrev Eu.selectsExtend (b : Byte) (e : Eu) : Prop := e.runOpen = true ∧ b = e.runVal ∧ e.runLen < Config.maxRunWord

/-- RD.CHUNK is selected: the byte continues the open run, whose length is already MAX_RUN (R56). -/
abbrev Eu.selectsChunk (b : Byte) (e : Eu) : Prop := e.runOpen = true ∧ b = e.runVal ∧ e.runLen = Config.maxRunWord

/-- RD.BREAK is selected: the byte differs from the open run's value (R56). -/
abbrev Eu.selectsBreak (b : Byte) (e : Eu) : Prop := e.runOpen = true ∧ b ≠ e.runVal

/-- RD.OPEN: start the first run; returns nothing (R57). -/
def Eu.rdOpen (b : Byte) (e : Eu) : Eu × List Byte :=
  ({ e with runOpen := true, runVal := b, runLen := 1, split := false }, [])

/-- RD.EXTEND: one more byte of the open run; returns nothing (R58). -/
def Eu.rdExtend (e : Eu) : Eu × List Byte :=
  ({ e with runLen := e.runLen + 1 }, [])

/-- RD.CHUNK: return one full run-block and count on from this byte (R59). -/
def Eu.rdChunk (e : Eu) : Eu × List Byte :=
  ({ e with runLen := 1, split := true }, fmt Config.maxRunWord e.runVal)

/-- RD.BREAK: return the emission of the open run and open the next (R60). -/
def Eu.rdBreak (b : Byte) (e : Eu) : Eu × List Byte :=
  ({ e with runVal := b, runLen := 1, split := false }, emitRun e.runVal e.runLen e.split)

/-- RD.FLUSH: return the emission of the open run, if any, and clear the registers (R61). -/
def Eu.rdFlush (e : Eu) : Eu × List Byte :=
  ({ e with runOpen := false, runVal := 0x00, runLen := 0, split := false },
    if e.runOpen = true then emitRun e.runVal e.runLen e.split else [])

/-- The run detector on an input byte: the one operation the table of R56 selects. -/
def Eu.rdByte (b : Byte) (e : Eu) : Eu × List Byte :=
  if e.runOpen = false then e.rdOpen b
  else if b = e.runVal then
    if e.runLen < Config.maxRunWord then e.rdExtend else e.rdChunk
  else e.rdBreak b

/-- All the bytes the run detector returns when it is fed the bytes of a sequence and then the end of input (R62). -/
def Eu.rdFeed (e : Eu) : List Byte → List Byte
  | [] => e.rdFlush.2
  | b :: t => (e.rdByte b).2 ++ (e.rdByte b).1.rdFeed t

/-- Keep what an operation run by itself returned (log 4). -/
def Eu.keepReturned (r : Eu × List Byte) : Eu := { r.1 with ret := r.2 }

/-- RD.OPEN (R57). -/
def execRdOpen (k : Nat) (b : Byte) (s : State) : Outcome State :=
  withEu k s fun e =>
    if e.selectsOpen then .next (Eu.keepReturned (e.rdOpen b)) else .refused .notSelected

/-- RD.EXTEND (R58). -/
def execRdExtend (k : Nat) (b : Byte) (s : State) : Outcome State :=
  withEu k s fun e =>
    if e.selectsExtend b then .next (Eu.keepReturned e.rdExtend)
    else .refused .notSelected

/-- RD.CHUNK (R59). -/
def execRdChunk (k : Nat) (b : Byte) (s : State) : Outcome State :=
  withEu k s fun e =>
    if e.selectsChunk b then .next (Eu.keepReturned e.rdChunk)
    else .refused .notSelected

/-- RD.BREAK (R60). -/
def execRdBreak (k : Nat) (b : Byte) (s : State) : Outcome State :=
  withEu k s fun e =>
    if e.selectsBreak b then .next (Eu.keepReturned (e.rdBreak b)) else .refused .notSelected

/-- RD.FLUSH (R61): the end of input selects it, whatever the registers hold (R56). -/
def execRdFlush (k : Nat) (s : State) : Outcome State :=
  withEu k s fun e => .next (Eu.keepReturned e.rdFlush)

/-- fmt(n, v) (R55): returns the run-block; writes no register of the detector. -/
def execFmt (k : Nat) (n : Word32) (v : Byte) (s : State) : Outcome State :=
  withEu k s fun e => .next (Eu.keepReturned (e, fmt n v))

end Sys2Proof.Machine
end

