-- ==== Sys2Proof/Machine/EncoderUnit.lean ====
section
/-! DEFINITION. The Encoder Unit's command and its two steps (41_encoder.md R63 to R66). -/

namespace Sys2Proof.Machine

/-- ENCODE(x): admitted when the unit is not BUSY and both lengths fit; then latches `x`, clears and sets BUSY (R63). -/
def execEncode (k : Nat) (x : List Byte) (s : State) : Outcome State :=
  withEu k s fun e =>
    match startRefusal s.offsetWidth e.status x.length (refEncode x).length with
    | some r => .refused r
    | none => .next (Eu.start x)

/-- The byte step: `out = RD(b); OutAppend(out); in_off <- in_off + 1` (R65). -/
def Eu.byteStep (e : Eu) : Outcome Eu :=
  e.onByte fun b => .next (((e.rdByte b).1.outAppend (e.rdByte b).2).advance 1)

/-- The finish step: `out = RD.FLUSH(); OutAppend(out); status <- DONE`, enabled when BUSY at the end of input (R66). -/
def Eu.finishStep (e : Eu) : Outcome Eu :=
  if e.status = .busy ∧ e.inOff = e.inLen then
    .next { e.rdFlush.1.outAppend e.rdFlush.2 with status := .done }
  else .refused .notSelected

/-- EU.STEP (R65). -/
def execEuStep (k : Nat) (s : State) : Outcome State := withEu k s Eu.byteStep

/-- EU.FINISH (R66). -/
def execEuFinish (k : Nat) (s : State) : Outcome State := withEu k s Eu.finishStep

end Sys2Proof.Machine
end

