-- ==== Sys2Proof/Machine/Reset.lean ====
section
/-! DEFINITION. RESET of one unit and power-on reset (70_reset_and_hazards.md R103). -/

namespace Sys2Proof.Machine

/-- RESET: accepted in every status; one unit at its reset values and every other unit as it was, or, at power-on, every unit
(R103). -/
def execReset (t : ResetTarget) (s : State) : Outcome State :=
  match t with
  | .one u =>
    match u.kind with
    | .eu => withEu u.inst s fun _ => .next Eu.reset
    | .du => withDu u.inst s fun _ => .next Du.reset
  | .powerOn => .next s.powerOn

end Sys2Proof.Machine
end

