-- ==== Sys2Proof/Machine/WireUnits.lean ====
section
/-! DEFINITION. The wire units as whole instructions of a Decoder Unit: what a complete unit at a unit boundary does, told from
its operands (30_encoding.md R42 to R46, 42_decoder.md R76, R80, R82). They are the byte steps of DecoderUnit.lean taken
together (log 5). -/

namespace Sys2Proof.Machine

/-- RUN n, v: appends `replicate(n, v)` and passes all 6 bytes; the sentinel's index stays in `blk_off` (R77 to R80). -/
def execRun (k : Nat) (n : Word32) (v : Byte) (s : State) : Outcome State :=
  withDu k s fun d =>
    if d.status = .busy ∧ d.phase = .head ∧ d.inOff + Config.blockLen ≤ d.inLen then
      .next ({ d.outAppend (List.replicate n.toNat v) with blkOff := d.inOff, lenAcc := 0, phase := .head }.advance
        Config.blockLen)
    else .refused .notSelected

/-- TRUNCATED: the sentinel and all bytes after it are consumed and TRUNCATED is raised at the sentinel's index
(R46, R77, R78, R82, R92). -/
def execTruncated (k : Nat) (tail : List Byte) (s : State) : Outcome State :=
  withDu k s fun d =>
    if 5 ≤ tail.length then .refused .notAWireUnit
    else if d.status = .busy ∧ d.phase = .head ∧ d.inOff + 1 + tail.length = d.inLen then
      .next (({ d with blkOff := d.inOff }.advance (1 + tail.length)).raiseTruncated d.inOff)
    else .refused .notSelected

/-- LIT v: appends `v` and passes one byte (R42, R76). -/
def execLit (k : Nat) (v : Byte) (s : State) : Outcome State :=
  withDu k s fun d =>
    if v = Config.sentinel then .refused .notAWireUnit
    else if d.status = .busy ∧ d.phase = .head ∧ d.inOff + 1 ≤ d.inLen then
      .next ((d.outAppend [v]).advance 1)
    else .refused .notSelected

end Sys2Proof.Machine
end

