-- ==== Sys2Proof/Machine/Dispatch.lean ====
section
/-! DEFINITION. One arm per row of spec/opcode_table.json, each one direct call of that row's meaning. -/

namespace Sys2Proof.Machine

def exec (i : Instr) (s : State) : Host.Outcome State Fault Refusal :=
  match i with
  | .run k n v => Sys2Proof.Machine.execRun k n v s
  | .truncated k tail => Sys2Proof.Machine.execTruncated k tail s
  | .lit k v => Sys2Proof.Machine.execLit k v s
  | .encode k x => Sys2Proof.Machine.execEncode k x s
  | .decode k y => Sys2Proof.Machine.execDecode k y s
  | .reset t => Sys2Proof.Machine.execReset t s
  | .euStep k => Sys2Proof.Machine.execEuStep k s
  | .euFinish k => Sys2Proof.Machine.execEuFinish k s
  | .rdOpen k b => Sys2Proof.Machine.execRdOpen k b s
  | .rdExtend k b => Sys2Proof.Machine.execRdExtend k b s
  | .rdChunk k b => Sys2Proof.Machine.execRdChunk k b s
  | .rdBreak k b => Sys2Proof.Machine.execRdBreak k b s
  | .rdFlush k => Sys2Proof.Machine.execRdFlush k s
  | .duLit k => Sys2Proof.Machine.execDuLit k s
  | .duSent k => Sys2Proof.Machine.execDuSent k s
  | .duLen k => Sys2Proof.Machine.execDuLen k s
  | .duVal k => Sys2Proof.Machine.execDuVal k s
  | .duFinishOk k => Sys2Proof.Machine.execDuFinishOk k s
  | .duFinishTrunc k => Sys2Proof.Machine.execDuFinishTrunc k s
  | .fmt k n v => Sys2Proof.Machine.execFmt k n v s

end Sys2Proof.Machine
end

