-- ==== Sys2Proof/Machine/Agents.lean ====
section
/-! DEFINITION. What each agent does when it moves (10_state.md R13): the one enabled step of a BUSY unit (41_encoder.md R64,
42_decoder.md R75), the fetch of a whole wire unit (30_encoding.md R41), a host command (70_reset_and_hazards.md R106), and which
unit moves when the environment says nothing. -/

namespace Sys2Proof.Machine

/-- The one enabled step of an Encoder Unit, if it has one (R64, R66, R102). -/
def Eu.enabled (k : Nat) (e : Eu) : Option Instr :=
  if e.status = .busy then
    if e.inOff < e.inLen then some (.euStep k)
    else if e.inOff = e.inLen then some (.euFinish k) else none
  else none

/-- The byte step that the phase and the next byte select (R75). -/
def Du.byteInstr (k : Nat) (d : Du) : Instr :=
  match d.phase with
  | .head => if inRead d.inBuf d.inOff = some Config.sentinel then .duSent k else .duLit k
  | .len0 => .duLen k
  | .len1 => .duLen k
  | .len2 => .duLen k
  | .len3 => .duLen k
  | .val => .duVal k

/-- The one enabled step of a Decoder Unit, if it has one (R75, R102). -/
def Du.enabled (k : Nat) (d : Du) : Option Instr :=
  if d.status = .busy then
    if d.inOff < d.inLen then some (d.byteInstr k)
    else if d.inOff = d.inLen then
      if d.phase = .head then some (.duFinishOk k) else some (.duFinishTrunc k)
    else none
  else none

/-- The one enabled step of the unit `u` (R64, R75). -/
def enabledStep (u : UnitId) (s : State) : Option Instr :=
  match u.kind with
  | .eu => (s.eu? u.inst).bind (Eu.enabled u.inst)
  | .du => (s.du? u.inst).bind (Du.enabled u.inst)

/-- What a wire turn of a Decoder Unit runs: at a unit boundary with input left, the wire unit its stream starts with; anywhere
else its one enabled step (R41, R75; log 5). -/
def Du.wireInstr (k : Nat) (d : Du) : Option Instr :=
  if d.status = .busy ∧ d.phase = .head ∧ d.inOff < d.inLen then
    match decode k d.stream with
    | .ok (i, _) => some i
    | .error _ => d.enabled k
  else d.enabled k

/-- The instruction of a host command (R50). -/
def HostCommand.toInstr : HostCommand → Instr
  | .encode k x => .encode k x
  | .decode k y => .decode k y
  | .reset t => .reset t

/-- Run the instruction there is; a unit with no enabled step takes none and keeps all its state (R102). -/
def runEnabled (o : Option Instr) (s : State) : Outcome State :=
  match o with
  | some i => exec i s
  | none => .next s

/-- One move of the environment. -/
def perform (m : Move) (s : State) : Outcome State :=
  match m with
  | .host c => exec c.toInstr s
  | .turn u => runEnabled (enabledStep u s) s
  | .wireTurn k => runEnabled ((s.du? k).bind (Du.wireInstr k)) s

/-- The first BUSY unit from instance `k` on, an instance's Encoder Unit before its Decoder Unit: who moves when the agenda is
empty (log 1). -/
def firstBusy (k : Nat) : List Inst → Option UnitId
  | [] => none
  | n :: t =>
    if n.eu.status = .busy then some { inst := k, kind := .eu }
    else if n.du.status = .busy then some { inst := k, kind := .du }
    else firstBusy (k + 1) t

/-- The machine's step on its own: the first BUSY unit takes its step; with none BUSY nothing moves (R102, R104). -/
def performIdle (s : State) : Outcome State :=
  match firstBusy 0 s.insts with
  | some u => perform (.turn u) s
  | none => .next s

/-- `s` with its next move taken off the agenda. -/
def State.popMove (s : State) : State := { s with agenda := s.agenda.tail }

/-- `n` turns of the unit `u` in a row. -/
def unitTurns (u : UnitId) : Nat → State → Outcome State
  | 0, s => .next s
  | n + 1, s =>
    match perform (.turn u) s with
    | .next t => unitTurns u n t
    | .fault r => .fault r
    | .refused r => .refused r

end Sys2Proof.Machine
end

