-- ==== Sys2Proof/Machine/Step.lean ====
section
/-! DEFINITION. One step of the machine, and a word placed where the next step fetches it. -/

namespace Sys2Proof.Machine

/-- One step: the move at the head of the agenda, or, with the agenda empty, the step of the first BUSY unit (log 1). -/
def step (s : State) : Host.Outcome State Fault Refusal :=
  match s.agenda with
  | m :: _ => perform m s.popMove
  | [] => performIdle s

/-- `s` with the bytes of a table word latched as the whole stream of instance 0's Decoder Unit, the unit at its start, and that
unit's wire turn as the next move: what DECODE of those bytes would leave, without its admission (logs 5 and 9). -/
def State.withFetchWord (s : State) (nbits w : Nat) : State :=
  { s.setDu 0 (Du.start (tableBytes nbits w)) with agenda := .wireTurn 0 :: s.agenda }

end Sys2Proof.Machine
end

