-- ==== Sys2Proof/Safety.lean ====
section
/-! DEFINITION. What counts as a good state: the invariants the spec states of its units (10_state.md R17, R23, R25) and of the
block (R7); and how many steps the BUSY units still have to take. -/

namespace Sys2Proof

/-- The one unit an instruction acts on; none for power-on reset, which acts on every unit (R13, R103). -/
def Instr.target : Instr → Option UnitId
  | .run k _ _ => some { inst := k, kind := .du }
  | .truncated k _ => some { inst := k, kind := .du }
  | .lit k _ => some { inst := k, kind := .du }
  | .encode k _ => some { inst := k, kind := .eu }
  | .decode k _ => some { inst := k, kind := .du }
  | .reset (.one u) => some u
  | .reset .powerOn => none
  | .euStep k => some { inst := k, kind := .eu }
  | .euFinish k => some { inst := k, kind := .eu }
  | .rdOpen k _ => some { inst := k, kind := .eu }
  | .rdExtend k _ => some { inst := k, kind := .eu }
  | .rdChunk k _ => some { inst := k, kind := .eu }
  | .rdBreak k _ => some { inst := k, kind := .eu }
  | .rdFlush k => some { inst := k, kind := .eu }
  | .duLit k => some { inst := k, kind := .du }
  | .duSent k => some { inst := k, kind := .du }
  | .duLen k => some { inst := k, kind := .du }
  | .duVal k => some { inst := k, kind := .du }
  | .duFinishOk k => some { inst := k, kind := .du }
  | .duFinishTrunc k => some { inst := k, kind := .du }
  | .fmt k _ _ => some { inst := k, kind := .eu }

/-- Does an instruction reset the unit `u` (R103)? -/
def Instr.resets (u : UnitId) (i : Instr) : Prop := i = .reset (.one u) ∨ i = .reset .powerOn

end Sys2Proof

namespace Sys2Proof.Machine

/-- The invariants of a unit's input and program counter (R14, R17): `in_len = len(in_buf)`, `in_off ≤ in_len`, and no offset
leaves OFFSET_WIDTH bits. -/
abbrev InputInv (offsetWidth : Nat) (inBuf : List Byte) (inLen inOff : Nat) : Prop :=
  inLen = inBuf.length ∧ inOff ≤ inLen ∧ inLen ≤ maxLength offsetWidth

/-- The invariants of an Encoder Unit: R14 and R17, then R23 (a) to (e). -/
abbrev Eu.Inv (offsetWidth : Nat) (e : Eu) : Prop :=
  InputInv offsetWidth e.inBuf e.inLen e.inOff ∧
  (e.runOpen = false → e.runVal = 0 ∧ e.runLen = 0 ∧ e.split = false) ∧
  (e.runOpen = true → e.status = .busy ∧ 1 ≤ e.runLen.toNat ∧ e.runLen.toNat ≤ Config.maxRun ∧ 1 ≤ e.inOff) ∧
  (e.runOpen = false → e.status = .busy → e.inOff = 0) ∧
  (e.status = .idle ∨ e.status = .done → e.runOpen = false) ∧
  e.status ≠ .error

/-- `phase = LENk` (R25 b): what the accumulator and the offsets hold there. -/
abbrev Du.LenInv (k : Nat) (d : Du) : Prop :=
  d.lenAcc.toNat < 2 ^ (8 * k) ∧ d.status = .busy ∧ d.inOff = d.blkOff + 1 + k

/-- The invariants of a Decoder Unit: R14 and R17, then R25 (a) to (f). -/
abbrev Du.Inv (offsetWidth : Nat) (d : Du) : Prop :=
  InputInv offsetWidth d.inBuf d.inLen d.inOff ∧
  (d.phase = .head → d.lenAcc = 0) ∧
  (d.phase = .len0 → d.LenInv 0) ∧ (d.phase = .len1 → d.LenInv 1) ∧
  (d.phase = .len2 → d.LenInv 2) ∧ (d.phase = .len3 → d.LenInv 3) ∧
  (d.phase = .val → d.inOff = d.blkOff + 5 ∧ d.status = .busy) ∧
  (d.phase ≠ .head → inRead d.inBuf d.blkOff = some Config.sentinel) ∧
  (d.status ≠ .busy → d.phase = .head ∧ d.lenAcc = 0) ∧
  (d.errCode = .truncated ↔ d.status = .error)

/-- The invariants of the block: at least one instance (R7), and every unit's. -/
abbrev State.Inv (s : State) : Prop :=
  s.insts ≠ [] ∧ ∀ n ∈ s.insts, n.eu.Inv s.offsetWidth ∧ n.du.Inv s.offsetWidth

/-- No unit is BUSY. -/
abbrev State.NoneBusy (s : State) : Prop := ∀ n ∈ s.insts, n.eu.status ≠ .busy ∧ n.du.status ≠ .busy

/-- The unit `u` is there and BUSY. -/
def State.Busy (u : UnitId) (s : State) : Prop :=
  match u.kind with
  | .eu => ∃ e, s.eu? u.inst = some e ∧ e.status = .busy
  | .du => ∃ d, s.du? u.inst = some d ∧ d.status = .busy

/-- The unit `u` is there and not BUSY. -/
def State.Quiet (u : UnitId) (s : State) : Prop :=
  match u.kind with
  | .eu => ∃ e, s.eu? u.inst = some e ∧ e.status ≠ .busy
  | .du => ∃ d, s.du? u.inst = some d ∧ d.status ≠ .busy

/-- The unit `u` has the same registers in both states. -/
def State.SameUnit (u : UnitId) (s t : State) : Prop :=
  match u.kind with
  | .eu => t.eu? u.inst = s.eu? u.inst
  | .du => t.du? u.inst = s.du? u.inst

/-- The host issues no command that acts on the unit `u` as the next move. -/
def State.NoCommandFor (u : UnitId) (s : State) : Prop :=
  ∀ c rest, s.agenda = .host c :: rest → c.toInstr.target ≠ some u ∧ c.toInstr.target ≠ none

/-- The steps the BUSY units of a state still have to take: each one a byte of input left, and the finish step (R64, R75). -/
def Inst.workLeft (n : Inst) : Nat :=
  (if n.eu.status = .busy then n.eu.inLen - n.eu.inOff + 1 else 0) +
  (if n.du.status = .busy then n.du.inLen - n.du.inOff + 1 else 0)

/-- The steps all units together still have to take. -/
def State.workLeft (s : State) : Nat := (s.insts.map Inst.workLeft).sum

/-- `n` steps of the machine, stopping at the first fault or refusal. -/
def steps : Nat → State → Outcome State
  | 0, s => .next s
  | n + 1, s =>
    match step s with
    | .next t => steps n t
    | .fault r => .fault r
    | .refused r => .refused r

end Sys2Proof.Machine
end

