-- ==== Sys2Proof/Certificates/Slice0/Obligations.lean ====
section
/-! DEFINITION. The statements for the provers, in the order of OBLIGATIONS.json. Each docstring names the rule of spec/ it
formalises. A statement about an instruction gives its whole next state, so it says the result, the frame and that the
instruction completes; `setEu` and `setDu` are pinned down by UnitWritesReadBack. -/

open Sys2Proof Sys2Proof.Machine

/-! ## The wire format -/

/-- Some words of the opcode table, written out from 30_encoding.md R42, R43 and R46, decode to the instructions they stand for. -/
def Obligations.TabulatedWordsDecode : Prop :=
  decodeTableWord 48 0x04000000106C = some (.run 0 16 0x6C) ∧
  decodeTableWord 48 0x0401020304FF = some (.run 0 0x01020304 0xFF) ∧
  decodeTableWord 8 0x68 = some (.lit 0 0x68) ∧
  decodeTableWord 8 0x04 = some (.truncated 0 []) ∧
  decode 0 [0x04, 0x00, 0x00] = .ok (.truncated 0 [0x00, 0x00], []) ∧
  decode 0 [] = .error .endOfStream

/-- Decoding the bytes of a well-formed wire unit gives that unit back and leaves what follows it (R41 to R44, R46). -/
def Obligations.DecodeInvertsEncode : Prop :=
  ∀ k : Nat,
    (∀ n v rest, ∃ bs, encode (.run k n v) = some bs ∧ decode k (bs ++ rest) = .ok (.run k n v, rest)) ∧
    (∀ v rest, (Instr.lit k v).wf = true →
      ∃ bs, encode (.lit k v) = some bs ∧ decode k (bs ++ rest) = .ok (.lit k v, rest)) ∧
    (∀ tail, (Instr.truncated k tail).wf = true →
      ∃ bs, encode (.truncated k tail) = some bs ∧ decode k bs = .ok (.truncated k tail, []))

/-- Whatever is decoded is a well-formed wire unit whose bytes are exactly those it was decoded from (R41, R46). -/
def Obligations.EncodeInvertsDecode : Prop :=
  ∀ k y i rest, decode k y = .ok (i, rest) →
    i.wf = true ∧ i.isWire = true ∧ ∃ bs, encode i = some bs ∧ y = bs ++ rest

/-- The first byte alone tells a unit's kind and length: 1 byte, or 6, or the rest of a stream that is too short (R45, R46, R50). -/
def Obligations.FirstByteTellsUnit : Prop :=
  ∀ (k : Nat) (b : Byte) (t : List Byte),
    (b ≠ 0x04 → decode k (b :: t) = .ok (.lit k b, t) ∧ unitLength b = 1) ∧
    (b = 0x04 → 5 ≤ t.length →
      ∃ n v rest, decode k (b :: t) = .ok (.run k n v, rest) ∧ (b :: t).length = unitLength b + rest.length ∧ unitLength b = 6) ∧
    (b = 0x04 → t.length < 5 → decode k (b :: t) = .ok (.truncated k t, []))

/-- The length field is big-endian, unsigned, neither scaled nor offset, and at most MAX_RUN; `be32bytes` is its inverse; the value
operand and the LIT operand are their bytes as they are (30_encoding.md R44; also 00_scope.md R10, 20_memory.md R31). -/
def Obligations.LengthFieldIsBigEndian : Prop :=
  ∀ (k : Nat) (l0 l1 l2 l3 v : Byte) (rest : List Byte),
    ∃ n : Word32, decode k (0x04 :: l0 :: l1 :: l2 :: l3 :: v :: rest) = .ok (.run k n v, rest) ∧
      n.toNat = l0.toNat * 2 ^ 24 + l1.toNat * 2 ^ 16 + l2.toNat * 2 ^ 8 + l3.toNat ∧
      n.toNat ≤ Config.maxRun ∧ be32bytes n = [l0, l1, l2, l3] ∧
      (v ≠ 0x04 → decode k (v :: rest) = .ok (.lit k v, rest))

/-! ## Runs, emission and the reference functions -/

/-- `runs(x)` covers `x` exactly, every run has length at least 1, neighbours have different values, and it is the only such
list (40_run_detector_formatter.md R51). -/
def Obligations.RunsAreMaximalAndUnique : Prop :=
  runs [] = [] ∧
  ∀ (x : List Byte) (l : List (Byte × Nat)),
    l = runs x ↔
      (l.map fun r => List.replicate r.2 r.1).flatten = x ∧ (∀ r ∈ l, 1 ≤ r.2) ∧
      List.IsChain (fun a b => a.1 ≠ b.1) l

/-- The emission decision for a run of 1 to MAX_RUN bytes (R52; for a value other than 0x04 also 90_conflicts.md C2, C3). -/
def Obligations.EmissionDecision : Prop :=
  ∀ (v : Byte) (L : Word32) (s : Bool), 1 ≤ L.toNat → L.toNat ≤ Config.maxRun →
    ((s = true ∨ 6 ≤ L.toNat ∨ v = 0x04) →
      emitRun v L s = [0x04, L.extractLsb' 24 8, L.extractLsb' 16 8, L.extractLsb' 8 8, L.extractLsb' 0 8, v]) ∧
    ((s = false ∧ L.toNat < 6 ∧ v ≠ 0x04) → emitRun v L s = List.replicate L.toNat v)

/-- A run longer than MAX_RUN is emitted as full run-blocks first and one remainder run-block of 1 to MAX_RUN bytes last (R53). -/
def Obligations.OverflowSplit : Prop :=
  ∀ (v : Byte) (L : Nat), Config.maxRun < L →
    ∃ q r, 1 ≤ q ∧ 1 ≤ r ∧ r ≤ Config.maxRun ∧ L = q * Config.maxRun + r ∧ q = (L - 1) / Config.maxRun ∧
      seg v L = (List.replicate q (fmt 0xFFFFFFFF v)).flatten ++ fmt (BitVec.ofNat 32 r) v ∧
      (BitVec.ofNat 32 r).toNat = r

/-- The length of a run's segment: L as literals, else 6 for each of its q + 1 run-blocks (R54). -/
def Obligations.SegmentLength : Prop :=
  ∀ (v : Byte) (L : Nat), 1 ≤ L →
    ((v ≠ 0x04 ∧ L < 6) → seg v L = List.replicate L v) ∧
    (¬(v ≠ 0x04 ∧ L < 6) → (seg v L).length = 6 * ((L - 1) / Config.maxRun + 1))

/-- Fed any input and then the end of input from its reset registers, the run detector returns exactly `encode(x)` (R62). -/
def Obligations.RunDetectorComputesEncode : Prop :=
  ∀ x : List Byte, Eu.reset.rdFeed x = refEncode x

/-- An encoded stream parses without truncation into well-formed units, none of them a literal 0x04 (41_encoder.md R69). -/
def Obligations.EncodedStreamParses : Prop :=
  ∀ (k : Nat) (x : List Byte), ∃ us, parseUnits k (refEncode x) = some us ∧
    ∀ u ∈ us, u.wf = true ∧ (∀ v, u = .lit k v → v ≠ 0x04) ∧ ((∃ v, u = .lit k v) ∨ ∃ n v, u = .run k n v)

/-- The necessary conditions (a) to (f) on the units of a canonical stream (R70). -/
def Obligations.CanonicalStreamConditions : Prop :=
  ∀ (k : Nat) (y : List Byte) (us : List Instr), Canonical y → parseUnits k y = some us →
    (∀ n v, Instr.run k n v ∈ us → 1 ≤ n.toNat) ∧
    (∀ i n v, us[i]? = some (.run k n v) → v ≠ 0x04 → n.toNat < 6 →
      ∃ j, i = j + 1 ∧ us[j]? = some (.run k 0xFFFFFFFF v)) ∧
    (∀ i n v u, us[i]? = some (.run k n v) → n.toNat < Config.maxRun → us[i + 1]? = some u →
      u ≠ .lit k v ∧ ∀ m, u ≠ .run k m v) ∧
    (∀ i v n, ¬(us[i]? = some (.lit k v) ∧ us[i + 1]? = some (.run k n v)) ∧
      ¬(us[i]? = some (.run k n v) ∧ us[i + 1]? = some (.lit k v))) ∧
    (∀ i v, ¬∀ j < 6, us[i + j]? = some (.lit k v)) ∧
    (∀ v, Instr.lit k v ∈ us → v ≠ 0x04)

/-- The exact test of a canonical stream: it decodes, and encoding what it decodes to gives it back (R70). -/
def Obligations.CanonicalExactTest : Prop :=
  ∀ y : List Byte, Canonical y ↔ ∃ x, refDecode y = .ok x ∧ refEncode x = y

/-- The length of the output: the sum over the runs; at most the input's without a 0x04 byte; and in general at most the input's
and 6 - L more for each sentinel run of length L below 6, itself at most six times the input's (R71). -/
def Obligations.OutputLengthBounds : Prop :=
  ∀ x : List Byte,
    (refEncode x).length = ((runs x).map fun r => (seg r.1 r.2).length).sum ∧
    (0x04 ∉ x → (refEncode x).length ≤ x.length) ∧
    (refEncode x).length ≤
      x.length + ((runs x).map fun r => if r.1 = 0x04 ∧ r.2 < 6 then 6 - r.2 else 0).sum ∧
    x.length + ((runs x).map fun r => if r.1 = 0x04 ∧ r.2 < 6 then 6 - r.2 else 0).sum ≤ 6 * x.length

/-- The recursion of `decode(y)` on the input index, case by case (42_decoder.md R83). -/
def Obligations.DecodeReferenceEquations : Prop :=
  ∀ y : List Byte, refDecode y = dec 0 [] (y.drop 0) ∧ refDecode [] = .ok [] ∧
    ∀ (i : Nat) (acc : List Byte),
      (i = y.length → dec i acc (y.drop i) = .ok acc) ∧
      (∀ b, y[i]? = some b → b ≠ 0x04 → dec i acc (y.drop i) = dec (i + 1) (acc ++ [b]) (y.drop (i + 1))) ∧
      (y[i]? = some 0x04 → y.length - i < 6 → dec i acc (y.drop i) = .truncated i) ∧
      (∀ l0 l1 l2 l3 v, y[i]? = some 0x04 → y[i + 1]? = some l0 → y[i + 2]? = some l1 → y[i + 3]? = some l2 →
        y[i + 4]? = some l3 → y[i + 5]? = some v →
        dec i acc (y.drop i) = dec (i + 6) (acc ++ List.replicate (be32 l0 l1 l2 l3).toNat v) (y.drop (i + 6)))

/-- The round trip: decoding what the encoder emits gives the input back, for every input (R72). -/
def Obligations.RoundTrip : Prop :=
  ∀ x : List Byte, refDecode (refEncode x) = .ok x

/-- Decoding fails exactly when the stream parses up to a sentinel with fewer than 5 bytes after it, and reports that sentinel's
index; a stream that parses whole decodes (30_encoding.md R46, 42_decoder.md R83). -/
def Obligations.DecodeFailsExactlyAtTruncatedBlock : Prop :=
  ∀ (k : Nat) (y : List Byte),
    (∀ i, refDecode y = .truncated i ↔
      (∃ us, parseUnits k (y.take i) = some us) ∧ y[i]? = some 0x04 ∧ y.length - i < 6) ∧
    ((∃ x, refDecode y = .ok x) ↔ ∃ us, parseUnits k y = some us)

/-- What a stream decodes to is the concatenation of what its units mean: `[v]` for LIT v, n copies of v for RUN n, v
(R42, R43, R86). -/
def Obligations.DecodedOutputOfUnits : Prop :=
  ∀ (k : Nat) (y : List Byte) (us : List Instr), parseUnits k y = some us →
    ∃ parts : List (List Byte), refDecode y = .ok parts.flatten ∧ parts.length = us.length ∧
      ∀ j : Nat, (∀ v, us[j]? = some (.lit k v) → parts[j]? = some [v]) ∧
        (∀ n v, us[j]? = some (.run k n v) → parts[j]? = some (List.replicate n.toNat v))

/-! ## State, reset and the host's commands -/

/-- Reading a unit after it was written gives what was written; every other unit, the number of instances, the carried parameter
and the agenda stay (10_state.md R13, R26). -/
def Obligations.UnitWritesReadBack : Prop :=
  ∀ (s : State) (k j : Nat) (e e₀ : Eu) (d d₀ : Du),
    (s.eu? k = some e₀ → (s.setEu k e).eu? k = some e) ∧ (s.du? k = some d₀ → (s.setDu k d).du? k = some d) ∧
    (j ≠ k → (s.setEu k e).eu? j = s.eu? j ∧ (s.setDu k d).du? j = s.du? j) ∧
    (s.setEu k e).du? j = s.du? j ∧ (s.setDu k d).eu? j = s.eu? j ∧
    (s.setEu k e).insts.length = s.insts.length ∧ (s.setDu k d).insts.length = s.insts.length ∧
    (s.setEu k e).offsetWidth = s.offsetWidth ∧ (s.setDu k d).offsetWidth = s.offsetWidth ∧
    (s.setEu k e).agenda = s.agenda ∧ (s.setDu k d).agenda = s.agenda

/-- After reset the block has NUM_INSTANCES instances, every unit holds the reset values of R14, R15, R22 and R24, and no unit has a
step (70_reset_and_hazards.md R103, R104). That `ret` and the agenda are empty is the model's choice (logs 1 and 4). -/
def Obligations.ResetState : Prop :=
  State.reset.insts.length = Config.numInstances ∧ 1 ≤ Config.numInstances ∧
  State.reset.offsetWidth = Config.offsetWidth ∧ State.reset.agenda = [] ∧
  ∀ k, k < Config.numInstances →
    State.reset.eu? k = some
      { status := .idle, inBuf := [], inLen := 0, inOff := 0, outBuf := [],
        runOpen := false, runVal := 0x00, runLen := 0, split := false, ret := [] } ∧
    State.reset.du? k = some
      { status := .idle, inBuf := [], inLen := 0, inOff := 0, outBuf := [],
        phase := .head, lenAcc := 0, blkOff := 0, errCode := .none, errOffset := 0 } ∧
    (∀ kind, enabledStep { inst := k, kind := kind } State.reset = none)

/-- ENCODE(x): admitted, it latches the input, clears every register the operation reads and sets BUSY, whatever ran before; not
admitted, it has no transition (41_encoder.md R63). Nothing is said of the model's own `ret`. -/
def Obligations.EncodeStarts : Prop :=
  ∀ (k : Nat) (x : List Byte) (s : State) (e : Eu), s.eu? k = some e →
    (e.status ≠ .busy → x.length ≤ 2 ^ s.offsetWidth - 1 → (refEncode x).length ≤ 2 ^ s.offsetWidth - 1 →
      ∃ r, exec (.encode k x) s = .next (s.setEu k
        { status := .busy, inBuf := x, inLen := x.length, inOff := 0, outBuf := [],
          runOpen := false, runVal := 0x00, runLen := 0, split := false, ret := r })) ∧
    (e.status = .busy ∨ 2 ^ s.offsetWidth - 1 < x.length ∨ 2 ^ s.offsetWidth - 1 < (refEncode x).length →
      ∃ r, exec (.encode k x) s = .refused r)

/-- DECODE(y): admitted, it latches the input, clears the parser and the error record and sets BUSY, whatever ran before; not
admitted, it has no transition (42_decoder.md R74). -/
def Obligations.DecodeStarts : Prop :=
  ∀ (k : Nat) (y : List Byte) (s : State) (d : Du), s.du? k = some d →
    (d.status ≠ .busy → y.length ≤ 2 ^ s.offsetWidth - 1 → (producedOutput y).length ≤ 2 ^ s.offsetWidth - 1 →
      exec (.decode k y) s = .next (s.setDu k
        { status := .busy, inBuf := y, inLen := y.length, inOff := 0, outBuf := [],
          phase := .head, lenAcc := 0, blkOff := 0, errCode := .none, errOffset := 0 })) ∧
    (d.status = .busy ∨ 2 ^ s.offsetWidth - 1 < y.length ∨ 2 ^ s.offsetWidth - 1 < (producedOutput y).length →
      ∃ r, exec (.decode k y) s = .refused r)

/-- A start command is refused, with no transition, exactly when the unit is BUSY or a length exceeds 2^OFFSET_WIDTH - 1
(R63, R74, R91, R106, R108). That the refusal of a BUSY unit has the name `startWhileBusy`, whatever the lengths are, is the model's
choice of names and of the order of its checks (log 6). -/
def Obligations.StartCommandRefusals : Prop :=
  ∀ (k : Nat) (x : List Byte) (s : State) (e : Eu) (d : Du), s.eu? k = some e → s.du? k = some d →
    (e.status = .busy → exec (.encode k x) s = .refused .startWhileBusy) ∧
    (d.status = .busy → exec (.decode k x) s = .refused .startWhileBusy) ∧
    ((∃ r, exec (.encode k x) s = .refused r) ↔
      e.status = .busy ∨ 2 ^ s.offsetWidth - 1 < x.length ∨ 2 ^ s.offsetWidth - 1 < (refEncode x).length) ∧
    ((∃ r, exec (.decode k x) s = .refused r) ↔
      d.status = .busy ∨ 2 ^ s.offsetWidth - 1 < x.length ∨ 2 ^ s.offsetWidth - 1 < (producedOutput x).length)

/-- RESET is accepted in every status: one unit takes its reset values and no other unit changes; power-on reset gives every unit
of every instance its reset values (R103). Nothing is said of the model's own `ret`. -/
def Obligations.ResetResult : Prop :=
  ∀ (k : Nat) (s : State) (e : Eu) (d : Du), s.eu? k = some e → s.du? k = some d →
    (∃ r, exec (.reset (.one { inst := k, kind := .eu })) s = .next (s.setEu k
      { status := .idle, inBuf := [], inLen := 0, inOff := 0, outBuf := [],
        runOpen := false, runVal := 0x00, runLen := 0, split := false, ret := r })) ∧
    exec (.reset (.one { inst := k, kind := .du })) s = .next (s.setDu k
      { status := .idle, inBuf := [], inLen := 0, inOff := 0, outBuf := [],
        phase := .head, lenAcc := 0, blkOff := 0, errCode := .none, errOffset := 0 }) ∧
    ∃ t r, exec (.reset .powerOn) s = .next t ∧ t.insts.length = s.insts.length ∧
      t.eu? k = some
        { status := .idle, inBuf := [], inLen := 0, inOff := 0, outBuf := [],
          runOpen := false, runVal := 0x00, runLen := 0, split := false, ret := r } ∧
      t.du? k = some
        { status := .idle, inBuf := [], inLen := 0, inOff := 0, outBuf := [],
          phase := .head, lenAcc := 0, blkOff := 0, errCode := .none, errOffset := 0 }

/-! ## The run detector and the formatter -/

/-- RD.OPEN with no run open: opens the run and returns nothing (R57). That the returned bytes are held in `ret` is the model's
choice (log 4), here and in the next five statements. -/
def Obligations.RdOpenResult : Prop :=
  ∀ (k : Nat) (b : Byte) (s : State) (e : Eu), s.eu? k = some e → e.runOpen = false →
    exec (.rdOpen k b) s =
      .next (s.setEu k { e with runOpen := true, runVal := b, runLen := 1, split := false, ret := [] })

/-- RD.EXTEND on the open run's value below MAX_RUN: counts the byte, without overflow, and returns nothing (R58). -/
def Obligations.RdExtendResult : Prop :=
  ∀ (k : Nat) (b : Byte) (s : State) (e : Eu), s.eu? k = some e →
    e.runOpen = true → b = e.runVal → e.runLen.toNat < Config.maxRun →
    exec (.rdExtend k b) s = .next (s.setEu k { e with runLen := e.runLen + 1, ret := [] }) ∧
    (e.runLen + 1).toNat = e.runLen.toNat + 1

/-- RD.CHUNK on the open run's value at MAX_RUN: returns one full run-block and counts from 1 with `split` set (R59). -/
def Obligations.RdChunkResult : Prop :=
  ∀ (k : Nat) (b : Byte) (s : State) (e : Eu), s.eu? k = some e →
    e.runOpen = true → b = e.runVal → e.runLen.toNat = Config.maxRun →
    exec (.rdChunk k b) s =
      .next (s.setEu k { e with runLen := 1, split := true, ret := [0x04, 0xFF, 0xFF, 0xFF, 0xFF, e.runVal] })

/-- RD.BREAK on another value: returns the emission of the open run and opens the next (R60). -/
def Obligations.RdBreakResult : Prop :=
  ∀ (k : Nat) (b : Byte) (s : State) (e : Eu), s.eu? k = some e → e.runOpen = true → b ≠ e.runVal →
    exec (.rdBreak k b) s =
      .next (s.setEu k { e with runVal := b, runLen := 1, split := false, ret := emitRun e.runVal e.runLen e.split })

/-- RD.FLUSH: returns the emission of the open run, or nothing when none is open, and clears the registers (R61). -/
def Obligations.RdFlushResult : Prop :=
  ∀ (k : Nat) (s : State) (e : Eu), s.eu? k = some e →
    (e.runOpen = true → exec (.rdFlush k) s = .next (s.setEu k
      { e with runOpen := false, runVal := 0x00, runLen := 0, split := false, ret := emitRun e.runVal e.runLen e.split })) ∧
    (e.runOpen = false → exec (.rdFlush k) s = .next (s.setEu k
      { e with runOpen := false, runVal := 0x00, runLen := 0, split := false, ret := [] }))

/-- fmt(n, v): returns the 6 bytes `[0x04] ++ be32bytes(n) ++ [v]`, one RUN unit, and writes no other register (R55). -/
def Obligations.FmtResult : Prop :=
  ∀ (k : Nat) (n : Word32) (v : Byte) (s : State) (e : Eu), s.eu? k = some e →
    exec (.fmt k n v) s = .next (s.setEu k
      { e with ret := [0x04, n.extractLsb' 24 8, n.extractLsb' 16 8, n.extractLsb' 8 8, n.extractLsb' 0 8, v] }) ∧
    encode (.run k n v) = some (fmt n v) ∧ (fmt n v).length = 6

/-- The table of R56: each byte operation of the run detector runs exactly under its condition, RD.FLUSH always, and on any byte
exactly one of the four byte operations runs; the others have no transition, which the model names `notSelected` (log 7). -/
def Obligations.RunDetectorSelectsOne : Prop :=
  ∀ (k : Nat) (b : Byte) (s : State) (e : Eu), s.eu? k = some e →
    ((∃ t, exec (.rdOpen k b) s = .next t) ↔ e.runOpen = false) ∧
    ((∃ t, exec (.rdExtend k b) s = .next t) ↔ e.runOpen = true ∧ b = e.runVal ∧ e.runLen.toNat < Config.maxRun) ∧
    ((∃ t, exec (.rdChunk k b) s = .next t) ↔ e.runOpen = true ∧ b = e.runVal ∧ e.runLen.toNat = Config.maxRun) ∧
    ((∃ t, exec (.rdBreak k b) s = .next t) ↔ e.runOpen = true ∧ b ≠ e.runVal) ∧
    (∃ t, exec (.rdFlush k) s = .next t) ∧
    ∃ i ∈ [Instr.rdOpen k b, .rdExtend k b, .rdChunk k b, .rdBreak k b],
      (∃ t, exec i s = .next t) ∧
      ∀ j ∈ [Instr.rdOpen k b, .rdExtend k b, .rdChunk k b, .rdBreak k b], j ≠ i → exec j s = .refused .notSelected

/-! ## The Encoder Unit's steps -/

/-- EU.STEP: the operation R56 selects on `b = InRead(in_off)`, what it returns appended, `in_off` advanced by 1 (R56, R65). -/
def Obligations.EuStepResult : Prop :=
  ∀ (k : Nat) (b : Byte) (s : State) (e : Eu), s.eu? k = some e → e.status = .busy → e.inOff < e.inLen →
    inRead e.inBuf e.inOff = some b →
    (e.runOpen = false → exec (.euStep k) s = .next (s.setEu k
      { e with runOpen := true, runVal := b, runLen := 1, split := false, inOff := e.inOff + 1 })) ∧
    (e.runOpen = true → b = e.runVal → e.runLen.toNat < Config.maxRun → exec (.euStep k) s = .next (s.setEu k
      { e with runLen := e.runLen + 1, inOff := e.inOff + 1 })) ∧
    (e.runOpen = true → b = e.runVal → e.runLen.toNat = Config.maxRun → exec (.euStep k) s = .next (s.setEu k
      { e with
        runLen := 1, split := true, inOff := e.inOff + 1,
        outBuf := e.outBuf ++ [0x04, 0xFF, 0xFF, 0xFF, 0xFF, b] })) ∧
    (e.runOpen = true → b ≠ e.runVal → exec (.euStep k) s = .next (s.setEu k
      { e with
        runVal := b, runLen := 1, split := false, inOff := e.inOff + 1,
        outBuf := e.outBuf ++ emitRun e.runVal e.runLen e.split }))

/-- EU.FINISH: the open run, if any, is emitted, the detector cleared, `status` DONE, `in_off` unchanged (R66). -/
def Obligations.EuFinishResult : Prop :=
  ∀ (k : Nat) (s : State) (e : Eu), s.eu? k = some e → e.status = .busy → e.inOff = e.inLen →
    (e.runOpen = true → exec (.euFinish k) s = .next (s.setEu k
      { e with
        outBuf := e.outBuf ++ emitRun e.runVal e.runLen e.split, status := .done,
        runOpen := false, runVal := 0x00, runLen := 0, split := false })) ∧
    (e.runOpen = false → exec (.euFinish k) s = .next (s.setEu k
      { e with status := .done, runOpen := false, runVal := 0x00, runLen := 0, split := false }))

/-- A BUSY Encoder Unit has exactly one enabled step, the byte step or the finish step, and any other step of it is refused; an
IDLE or DONE unit has none (R64). The premise is the unit's invariant; the refusal's name `notSelected` is the model's (log 7). -/
def Obligations.EuEnabledStep : Prop :=
  ∀ (k : Nat) (s : State) (e : Eu), s.eu? k = some e → e.Inv s.offsetWidth →
    (e.status = .busy → e.inOff < e.inLen → enabledStep { inst := k, kind := .eu } s = some (.euStep k) ∧
      (∃ t, exec (.euStep k) s = .next t) ∧ exec (.euFinish k) s = .refused .notSelected) ∧
    (e.status = .busy → ¬e.inOff < e.inLen → enabledStep { inst := k, kind := .eu } s = some (.euFinish k) ∧
      (∃ t, exec (.euFinish k) s = .next t) ∧ exec (.euStep k) s = .refused .notSelected) ∧
    (e.status ≠ .busy → enabledStep { inst := k, kind := .eu } s = none ∧
      exec (.euStep k) s = .refused .notSelected ∧ exec (.euFinish k) s = .refused .notSelected)

/-! ## The Decoder Unit's steps -/

/-- At a unit boundary a byte other than 0x04 is appended (DU.LIT, R76), and a sentinel records its index and starts a RUN unit, with
nothing appended (DU.SENT, R77). -/
def Obligations.DuHeadByteResult : Prop :=
  ∀ (k : Nat) (b : Byte) (s : State) (d : Du), s.du? k = some d → d.status = .busy → d.inOff < d.inLen →
    inRead d.inBuf d.inOff = some b → d.phase = .head →
    (b ≠ 0x04 → exec (.duLit k) s = .next (s.setDu k { d with outBuf := d.outBuf ++ [b], inOff := d.inOff + 1 })) ∧
    (b = 0x04 → exec (.duSent k) s = .next (s.setDu k
      { d with blkOff := d.inOff, lenAcc := 0, phase := .len0, inOff := d.inOff + 1 }))

/-- DU.LEN in each of the four length phases: one more length byte, most significant first; by the accumulator's invariant the
32-bit register does not overflow; and four of them from 0 assemble `be32` (R78). -/
def Obligations.DuLenResult : Prop :=
  ∀ (k : Nat) (b : Byte) (s : State) (d : Du), s.du? k = some d → d.status = .busy → d.inOff < d.inLen →
    inRead d.inBuf d.inOff = some b →
    ∀ p q j, (p, q, j) ∈ [(Phase.len0, Phase.len1, 0), (.len1, .len2, 1), (.len2, .len3, 2), (.len3, .val, 3)] →
      d.phase = p →
      exec (.duLen k) s = .next (s.setDu k
        { d with lenAcc := d.lenAcc * 256 + b.setWidth 32, phase := q, inOff := d.inOff + 1 }) ∧
      (d.lenAcc.toNat < 2 ^ (8 * j) → (d.lenAcc * 256 + b.setWidth 32).toNat = d.lenAcc.toNat * 256 + b.toNat) ∧
      ∀ l0 l1 l2 l3 : Byte, [l0, l1, l2, l3].foldl (fun acc l => acc * 256 + l.setWidth 32) 0 = be32 l0 l1 l2 l3

/-- DU.VAL: `len_acc` copies of the value byte are appended in one step, none for length 0, and the parser returns to HEAD (R79). -/
def Obligations.DuValResult : Prop :=
  ∀ (k : Nat) (b : Byte) (s : State) (d : Du), s.du? k = some d → d.status = .busy → d.inOff < d.inLen →
    inRead d.inBuf d.inOff = some b → d.phase = .val →
    exec (.duVal k) s = .next (s.setDu k
      { d with outBuf := d.outBuf ++ List.replicate d.lenAcc.toNat b, lenAcc := 0, phase := .head, inOff := d.inOff + 1 })

/-- The finish steps: at a unit boundary DONE (DU.FINISH_OK, R81); inside a RUN unit TRUNCATED(blk_off) is raised (DU.FINISH_TRUNC, R82):
the error record, phase, accumulator and status are written in one step, and the input, `in_off` and `out_buf` stay (R92). By the
unit's invariant the number of bytes after the sentinel is the phase's index, 0 to 4. -/
def Obligations.DuFinishResult : Prop :=
  ∀ (k : Nat) (s : State) (d : Du), s.du? k = some d → d.status = .busy → d.inOff = d.inLen →
    (d.phase = .head → exec (.duFinishOk k) s = .next (s.setDu k { d with status := .done })) ∧
    (d.phase ≠ .head → exec (.duFinishTrunc k) s = .next (s.setDu k
      { d with errCode := .truncated, errOffset := d.blkOff, phase := .head, lenAcc := 0, status := .error })) ∧
    (d.Inv s.offsetWidth → ∀ p j, (p, j) ∈ [(Phase.len0, 0), (.len1, 1), (.len2, 2), (.len3, 3), (.val, 4)] →
      d.phase = p → d.inLen - d.blkOff - 1 = j)

/-- A BUSY Decoder Unit's one enabled step, by `in_off`, phase and byte, completes; a unit that is not BUSY has none (R75).
The premise is the unit's invariant; the refusal's name `notSelected` is the model's (log 7). -/
def Obligations.DuEnabledStep : Prop :=
  ∀ (k : Nat) (s : State) (d : Du), s.du? k = some d → d.Inv s.offsetWidth →
    (d.status = .busy → d.inOff < d.inLen →
      (d.phase = .head → inRead d.inBuf d.inOff ≠ some 0x04 → enabledStep { inst := k, kind := .du } s = some (.duLit k)) ∧
      (d.phase = .head → inRead d.inBuf d.inOff = some 0x04 → enabledStep { inst := k, kind := .du } s = some (.duSent k)) ∧
      (d.phase ≠ .head → d.phase ≠ .val → enabledStep { inst := k, kind := .du } s = some (.duLen k)) ∧
      (d.phase = .val → enabledStep { inst := k, kind := .du } s = some (.duVal k))) ∧
    (d.status = .busy → ¬d.inOff < d.inLen →
      (d.phase = .head → enabledStep { inst := k, kind := .du } s = some (.duFinishOk k)) ∧
      (d.phase ≠ .head → enabledStep { inst := k, kind := .du } s = some (.duFinishTrunc k))) ∧
    (d.status ≠ .busy → enabledStep { inst := k, kind := .du } s = none) ∧
    (∀ i, enabledStep { inst := k, kind := .du } s = some i → ∃ t, exec i s = .next t) ∧
    (∀ i ∈ [Instr.duLit k, .duSent k, .duLen k, .duVal k, .duFinishOk k, .duFinishTrunc k],
      enabledStep { inst := k, kind := .du } s ≠ some i → exec i s = .refused .notSelected)

/-! ## Whole wire units -/

/-- LIT v, RUN n, v and TRUNCATED as instructions at a unit boundary: what is appended, how far `in_off` moves, and for the truncated
prefix the exception at its sentinel's index (30_encoding.md R42, R43, R46; R80, R92). -/
def Obligations.WireUnitResults : Prop :=
  ∀ (k : Nat) (n : Word32) (v : Byte) (tail : List Byte) (s : State) (d : Du), s.du? k = some d → d.status = .busy →
    d.phase = .head →
    (v ≠ 0x04 → d.inOff + 1 ≤ d.inLen →
      exec (.lit k v) s = .next (s.setDu k { d with outBuf := d.outBuf ++ [v], inOff := d.inOff + 1 })) ∧
    (d.inOff + 6 ≤ d.inLen →
      exec (.run k n v) s = .next (s.setDu k
        { d with
          outBuf := d.outBuf ++ List.replicate n.toNat v, inOff := d.inOff + 6, blkOff := d.inOff, lenAcc := 0 })) ∧
    (tail.length ≤ 4 → d.inOff + 1 + tail.length = d.inLen →
      exec (.truncated k tail) s = .next (s.setDu k
        { d with
          inOff := d.inLen, blkOff := d.inOff, lenAcc := 0, errCode := .truncated, errOffset := d.inOff,
          status := .error }))

/-- A whole wire unit is its byte steps taken together: six for a RUN, one for a LIT, and for a truncated run-block one for each of its
bytes and the finish step (R76 to R80, R82). -/
def Obligations.WireUnitIsItsByteSteps : Prop :=
  ∀ (k : Nat) (s : State) (d : Du), s.du? k = some d → d.status = .busy → d.phase = .head →
    d.inLen = d.inBuf.length →
    (∀ l0 l1 l2 l3 v rest, d.inBuf.drop d.inOff = 0x04 :: l0 :: l1 :: l2 :: l3 :: v :: rest →
      unitTurns { inst := k, kind := .du } 6 s = exec (.run k (be32 l0 l1 l2 l3) v) s) ∧
    (∀ b rest, b ≠ 0x04 → d.inBuf.drop d.inOff = b :: rest →
      unitTurns { inst := k, kind := .du } 1 s = exec (.lit k b) s) ∧
    (∀ tail, tail.length < 5 → d.inBuf.drop d.inOff = 0x04 :: tail →
      unitTurns { inst := k, kind := .du } (tail.length + 2) s = exec (.truncated k tail) s)

/-! ## Whole operations -/

/-- An admitted ENCODE(x) takes exactly len(x) + 1 steps to DONE with `out_buf = encode(x)`, `in_off = len(x)` and the detector at its
reset values; up to the last step it is BUSY and `out_buf` is a prefix of `encode(x)` (R68). That `ret` is [] then is the model's choice
(log 4). -/
def Obligations.EncodeOperation : Prop :=
  ∀ (k : Nat) (x : List Byte) (s : State) (e : Eu), s.eu? k = some e → e.status ≠ .busy →
    x.length ≤ 2 ^ s.offsetWidth - 1 → (refEncode x).length ≤ 2 ^ s.offsetWidth - 1 →
    ∃ s₁, exec (.encode k x) s = .next s₁ ∧
      unitTurns { inst := k, kind := .eu } (x.length + 1) s₁ = .next (s.setEu k
        { status := .done, inBuf := x, inLen := x.length, inOff := x.length, outBuf := refEncode x,
          runOpen := false, runVal := 0x00, runLen := 0, split := false, ret := [] }) ∧
      ∀ m, m ≤ x.length → ∃ t e', unitTurns { inst := k, kind := .eu } m s₁ = .next t ∧ t.eu? k = some e' ∧
        e'.status = .busy ∧ e'.inOff = m ∧ e'.outBuf <+: refEncode x

/-- An admitted DECODE(y) takes exactly len(y) + 1 steps to DONE with `decode(y)`'s output, or to ERROR with the record of the truncated
unit and the output of the units before it; its result is `decode(y)`; up to the last step it is BUSY and `out_buf` is a prefix of
the final one (R84, R85). -/
def Obligations.DecodeOperation : Prop :=
  ∀ (k : Nat) (y : List Byte) (s : State) (d : Du), s.du? k = some d → d.status ≠ .busy →
    y.length ≤ 2 ^ s.offsetWidth - 1 → (producedOutput y).length ≤ 2 ^ s.offsetWidth - 1 →
    ∃ s₁ t d', exec (.decode k y) s = .next s₁ ∧
      unitTurns { inst := k, kind := .du } (y.length + 1) s₁ = .next t ∧ t = s.setDu k d' ∧
      d'.inBuf = y ∧ d'.inLen = y.length ∧ d'.inOff = y.length ∧ d'.phase = .head ∧ d'.lenAcc = 0 ∧
      d'.result = some (refDecode y) ∧
      (∀ x, refDecode y = .ok x → d'.status = .done ∧ d'.outBuf = x ∧ d'.errCode = .none) ∧
      (∀ i, refDecode y = .truncated i → d'.status = .error ∧ d'.errCode = .truncated ∧ d'.errOffset = i ∧
        refDecode (y.take i) = .ok d'.outBuf) ∧
      ∀ m, m ≤ y.length → ∃ tm dm, unitTurns { inst := k, kind := .du } m s₁ = .next tm ∧ tm.du? k = some dm ∧
        dm.status = .busy ∧ dm.inOff = m ∧ dm.outBuf <+: d'.outBuf

/-- The codec's contract on the machine: what an Encoder Unit emits for `x`, given to any Decoder Unit, is decoded to `x`
(R68, R72, R84). -/
def Obligations.CodecRoundTrip : Prop :=
  ∀ (k j : Nat) (x : List Byte) (s : State), s.Quiet { inst := k, kind := .eu } → s.Quiet { inst := j, kind := .du } →
    x.length ≤ 2 ^ s.offsetWidth - 1 → (refEncode x).length ≤ 2 ^ s.offsetWidth - 1 →
    ∃ s₁ s₂ e s₃ s₄ d, exec (.encode k x) s = .next s₁ ∧
      unitTurns { inst := k, kind := .eu } (x.length + 1) s₁ = .next s₂ ∧ s₂.eu? k = some e ∧
      exec (.decode j e.outBuf) s₂ = .next s₃ ∧
      unitTurns { inst := j, kind := .du } (e.outBuf.length + 1) s₃ = .next s₄ ∧ s₄.du? j = some d ∧
      d.result = some (.ok x)

/-! ## What may change what -/

/-- An instruction changes no unit but its own, nor the number of instances, OFFSET_WIDTH or the agenda (R13, R26, R36, R103). -/
def Obligations.OnlyTheTargetUnitChanges : Prop :=
  ∀ (i : Instr) (s t : State), exec i s = .next t →
    t.insts.length = s.insts.length ∧ t.offsetWidth = s.offsetWidth ∧ t.agenda = s.agenda ∧
    ∀ u v, i.target = some u → v ≠ u → s.SameUnit v t

/-- `status` is written only by the start commands (BUSY), the finish steps (DONE or ERROR) and reset (IDLE); a whole TRUNCATED unit
holds its finish step. The error record is written only by DECODE, the truncating finish step and reset (R19). -/
def Obligations.StatusAndErrorWriters : Prop :=
  ∀ (i : Instr) (s t : State) (k : Nat) (e e' : Eu) (d d' : Du), exec i s = .next t →
    s.eu? k = some e → t.eu? k = some e' → s.du? k = some d → t.du? k = some d' →
    (e'.status ≠ e.status →
      (e'.status = .busy ∧ ∃ x, i = .encode k x) ∨ (e'.status = .done ∧ i = .euFinish k) ∨
      (e'.status = .idle ∧ i.resets { inst := k, kind := .eu })) ∧
    (d'.status ≠ d.status →
      (d'.status = .busy ∧ ∃ y, i = .decode k y) ∨ (d'.status = .done ∧ i = .duFinishOk k) ∨
      (d'.status = .error ∧ (i = .duFinishTrunc k ∨ ∃ tail, i = .truncated k tail)) ∨
      (d'.status = .idle ∧ i.resets { inst := k, kind := .du })) ∧
    (d'.errCode ≠ d.errCode ∨ d'.errOffset ≠ d.errOffset →
      (d'.errCode = .none ∧ d'.errOffset = 0 ∧ ((∃ y, i = .decode k y) ∨ i.resets { inst := k, kind := .du })) ∨
      (d'.errCode = .truncated ∧ (i = .duFinishTrunc k ∨ ∃ tail, i = .truncated k tail)))

/-- The program counter of a unit moves by one in a byte step, by a whole unit's length in a wire unit, is cleared by a start command
or reset, and is written by nothing else (R17, R80). -/
def Obligations.ProgramCounterWriters : Prop :=
  ∀ (i : Instr) (s t : State) (k : Nat) (e e' : Eu) (d d' : Du), exec i s = .next t →
    s.eu? k = some e → t.eu? k = some e' → s.du? k = some d → t.du? k = some d' →
    (e'.inOff = e.inOff ∨ (e'.inOff = e.inOff + 1 ∧ i = .euStep k) ∨
      (e'.inOff = 0 ∧ ((∃ x, i = .encode k x) ∨ i.resets { inst := k, kind := .eu }))) ∧
    (d'.inOff = d.inOff ∨
      (d'.inOff = d.inOff + 1 ∧ (i = .duLit k ∨ i = .duSent k ∨ i = .duLen k ∨ i = .duVal k ∨ ∃ v, i = .lit k v)) ∨
      (d'.inOff = d.inOff + 6 ∧ ∃ n v, i = .run k n v) ∨
      (d'.inOff = d'.inLen ∧ ∃ tail, i = .truncated k tail ∧ d'.inOff = d.inOff + 1 + tail.length) ∨
      (d'.inOff = 0 ∧ ((∃ y, i = .decode k y) ∨ i.resets { inst := k, kind := .du })))

/-- The input is latched: only the unit's start command and reset write `in_buf` and `in_len` (20_memory.md R29, R39). Output is
append-only: bytes already in `out_buf` are never changed, removed or reordered, except that a start command and reset clear it (R30). -/
def Obligations.InputLatchedOutputAppendOnly : Prop :=
  ∀ (i : Instr) (s t : State) (k : Nat) (e e' : Eu) (d d' : Du), exec i s = .next t →
    s.eu? k = some e → t.eu? k = some e' → s.du? k = some d → t.du? k = some d' →
    (e'.inBuf ≠ e.inBuf ∨ e'.inLen ≠ e.inLen → (∃ x, i = .encode k x) ∨ i.resets { inst := k, kind := .eu }) ∧
    (d'.inBuf ≠ d.inBuf ∨ d'.inLen ≠ d.inLen → (∃ y, i = .decode k y) ∨ i.resets { inst := k, kind := .du }) ∧
    (e.outBuf <+: e'.outBuf ∨
      (e'.outBuf = [] ∧ ((∃ x, i = .encode k x) ∨ i.resets { inst := k, kind := .eu }))) ∧
    (d.outBuf <+: d'.outBuf ∨
      (d'.outBuf = [] ∧ ((∃ y, i = .decode k y) ∨ i.resets { inst := k, kind := .du })))

/-- How much one step appends: an Encoder Unit's step nothing, 1 to 5 literals, or one run-block of 6 bytes; a Decoder Unit's byte
step nothing or one byte, except the value step, which appends `len_acc` bytes; the finish steps of a Decoder Unit nothing (R33). -/
def Obligations.BytesAppendedPerStep : Prop :=
  ∀ (k : Nat) (s t : State) (e e' : Eu) (d d' : Du),
    s.eu? k = some e → t.eu? k = some e' → s.du? k = some d → t.du? k = some d' →
    ((exec (.euStep k) s = .next t ∨ exec (.euFinish k) s = .next t) → ∃ bs, e'.outBuf = e.outBuf ++ bs ∧
      (bs.length ≤ 5 → bs = List.replicate bs.length e.runVal) ∧ bs.length ≤ 6) ∧
    ((exec (.duLit k) s = .next t ∨ exec (.duSent k) s = .next t ∨ exec (.duLen k) s = .next t) →
      ∃ bs, d'.outBuf = d.outBuf ++ bs ∧ bs.length ≤ 1) ∧
    (exec (.duVal k) s = .next t →
      ∃ bs, d'.outBuf = d.outBuf ++ bs ∧ bs.length = d.lenAcc.toNat ∧ bs.length ≤ Config.maxRun) ∧
    ((exec (.duFinishOk k) s = .next t ∨ exec (.duFinishTrunc k) s = .next t) → d'.outBuf = d.outBuf)

/-- TRUNCATED is raised only by the truncating finish step, at the end of the input, and no Encoder Unit ever reaches ERROR
(60_exceptions.md R89, R90). -/
def Obligations.OnlyTruncationRaises : Prop :=
  ∀ (i : Instr) (s t : State) (k : Nat) (e e' : Eu) (d d' : Du), exec i s = .next t →
    s.eu? k = some e → t.eu? k = some e' → s.du? k = some d → t.du? k = some d' →
    (e.status ≠ .error → e'.status ≠ .error) ∧
    (d.status ≠ .error → d'.status = .error →
      d'.inOff = d'.inLen ∧ d'.errCode = .truncated ∧ d'.outBuf = d.outBuf ∧ d'.errOffset = d'.blkOff ∧
      ((i = .duFinishTrunc k ∧ d.phase ≠ .head) ∨ ∃ tail, i = .truncated k tail ∧ d.phase = .head ∧ tail.length < 5))

/-! ## The machine's step -/

/-- A step runs the move at the head of the agenda on the state with that move taken off: a host command's instruction, a unit's
enabled step, or nothing where the unit has none (R64, R75, R102, R106; the agenda is the model's, log 1). -/
def Obligations.StepRunsTheNextMove : Prop :=
  ∀ (s : State) (rest : List Move),
    (∀ c, s.agenda = .host c :: rest → step s = exec c.toInstr { s with agenda := rest }) ∧
    (∀ u i, s.agenda = .turn u :: rest → enabledStep u s = some i → step s = exec i { s with agenda := rest }) ∧
    (∀ u, s.agenda = .turn u :: rest → enabledStep u s = none → step s = .next { s with agenda := rest })

/-- When the bytes at a Decoder Unit's program counter decode to a wire unit, the step on its wire turn is that instruction's exec on the
state with the turn taken off; a table word placed by withFetchWord is what the next step runs (R41; the wire turn is the model's,
logs 5 and 9). -/
def Obligations.StepRunsTheDecodedUnit : Prop :=
  (∀ (s : State) (k : Nat) (d : Du) (i : Instr) (after : List Byte) (rest : List Move),
    s.agenda = .wireTurn k :: rest → s.du? k = some d → d.status = .busy → d.phase = .head → d.inOff < d.inLen →
    decode k ((d.inBuf.take d.inLen).drop d.inOff) = .ok (i, after) → step s = exec i { s with agenda := rest }) ∧
  (∀ (s : State) (nbits w : Nat) (i : Instr), s.insts ≠ [] → decodeTableWord nbits w = some i →
    step (s.withFetchWord nbits w) = exec i { s.withFetchWord nbits w with agenda := s.agenda })

/-- With nothing on the agenda a state with no BUSY unit stays as it is, and otherwise some BUSY unit takes its enabled step
(R64, R75, R102, R104). That a BUSY unit then steps at once, where R64 and R75 give only weak fairness, and which goes first, is the
model's choice (logs 1 and 13). -/
def Obligations.StepWithoutMoves : Prop :=
  ∀ s : State, s.agenda = [] →
    (s.NoneBusy → step s = .next s) ∧
    (¬s.NoneBusy → ∃ u, s.Busy u ∧ step s = perform (.turn u) s)

/-- Every step keeps the invariants R17, R23 and R25 of every unit of every instance, from every state that has them. -/
def Obligations.StepKeepsInvariants : Prop :=
  ∀ s t : State, s.Inv → step s = .next t → t.Inv

/-- The state after reset has the invariants. -/
def Obligations.ResetHasInvariants : Prop := State.reset.Inv

/-- From a state with the invariants no step faults, a turn of any unit completes, and only a host command is ever refused
(R64, R75, R90, R91). -/
def Obligations.OnlyHostCommandsAreRefused : Prop :=
  ∀ s : State, s.Inv →
    (∀ r, step s ≠ .fault r) ∧ (∀ u, ∃ t, perform (.turn u) s = .next t) ∧ (∀ k, ∃ t, perform (.wireTurn k) s = .next t) ∧
    (∀ r, step s = .refused r → ∃ c rest, s.agenda = .host c :: rest)

/-- Progress: with no move left on the agenda each step takes one off `workLeft`, the sum over all BUSY units of the steps each still
has to take, so at that sum every operation has ended (R64, R75, R109). That with an empty agenda every step is a BUSY unit's, and in
which order, is the model's choice (logs 1 and 13); R64 and R75 give only weak fairness. -/
def Obligations.BusyUnitsMakeProgress : Prop :=
  ∀ s : State, s.Inv → s.agenda = [] →
    ∀ m, m ≤ s.workLeft → ∃ t, steps m s = .next t ∧ t.workLeft + m = s.workLeft ∧
      (m = s.workLeft → t.NoneBusy ∧ step t = .next t)

/-- A unit that is not BUSY keeps all its state, its output and its error record among it, in every step that is no command for it
(20_memory.md R37, R93, R102, R107). -/
def Obligations.ResultsStayUntilTheNextCommand : Prop :=
  ∀ (s t : State) (u : UnitId), s.Quiet u → s.NoCommandFor u → step s = .next t → s.SameUnit u t

/-- The steps of two different units commute: either order completes with the same state (R36). -/
def Obligations.UnitsAreIndependent : Prop :=
  ∀ (s s₁ t : State) (u v : UnitId), u ≠ v → perform (.turn u) s = .next s₁ → perform (.turn v) s₁ = .next t →
    ∃ s₂, perform (.turn v) s = .next s₂ ∧ perform (.turn u) s₂ = .next t

/-- What the host reads: the outputs of R21 with their encodings of R14 and R15, and the result of an operation, which is there exactly at
DONE or ERROR and is the error alone at ERROR (R21, R85, R107). -/
def Obligations.HostOutputs : Prop :=
  ∀ (e : Eu) (d : Du),
    (e.outputs.inCount = e.inOff ∧ e.outputs.outCount = e.outBuf.length ∧ e.outputs.outData = e.outBuf) ∧
    (d.outputs.inCount = d.inOff ∧ d.outputs.outCount = d.outBuf.length ∧ d.outputs.outData = d.outBuf ∧
      d.outputs.errOffset = d.errOffset) ∧
    (∀ st c, (st, c) ∈ [(Status.idle, 0), (.busy, 1), (.done, 2), (.error, 3)] →
      (e.status = st → e.outputs.status = c) ∧ (d.status = st → d.outputs.status = c)) ∧
    (d.errCode = .none → d.outputs.errCode = 0) ∧ (d.errCode = .truncated → d.outputs.errCode = 1) ∧
    (d.status = .done → d.result = some (.ok d.outBuf)) ∧
    (d.status = .error → d.result = some (.truncated d.errOffset)) ∧
    (d.status ≠ .done → d.status ≠ .error → d.result = none) ∧
    (e.status = .done → e.result = some e.outBuf) ∧ (e.status ≠ .done → e.result = none)
end

