-- ==== Sys2Proof/Laws/State.lean ====
section
/-! SUPPORT. The small laws of the state: what each write of a unit, of the agenda and of all units changes and leaves, one lemma
per field per update, so that no proof unfolds a record update or a list update. -/

namespace Sys2Proof.Machine

@[simp] theorem State.setEu_offsetWidth (k : Nat) (e : Eu) (s : State) :
    (s.setEu k e).offsetWidth = s.offsetWidth := rfl
@[simp] theorem State.setEu_agenda (k : Nat) (e : Eu) (s : State) : (s.setEu k e).agenda = s.agenda := rfl
@[simp] theorem State.setDu_offsetWidth (k : Nat) (d : Du) (s : State) :
    (s.setDu k d).offsetWidth = s.offsetWidth := rfl
@[simp] theorem State.setDu_agenda (k : Nat) (d : Du) (s : State) : (s.setDu k d).agenda = s.agenda := rfl
@[simp] theorem State.popMove_offsetWidth (s : State) : s.popMove.offsetWidth = s.offsetWidth := rfl
@[simp] theorem State.popMove_insts (s : State) : s.popMove.insts = s.insts := rfl
@[simp] theorem State.popMove_agenda (s : State) : s.popMove.agenda = s.agenda.tail := rfl
@[simp] theorem State.powerOn_offsetWidth (s : State) : s.powerOn.offsetWidth = s.offsetWidth := rfl
@[simp] theorem State.powerOn_agenda (s : State) : s.powerOn.agenda = s.agenda := rfl
@[simp] theorem State.popMove_eu (s : State) (k : Nat) : s.popMove.eu? k = s.eu? k := rfl
@[simp] theorem State.popMove_du (s : State) (k : Nat) : s.popMove.du? k = s.du? k := rfl

@[simp] theorem State.setEu_length (k : Nat) (e : Eu) (s : State) :
    (s.setEu k e).insts.length = s.insts.length := by simp [State.setEu]
@[simp] theorem State.setDu_length (k : Nat) (d : Du) (s : State) :
    (s.setDu k d).insts.length = s.insts.length := by simp [State.setDu]
@[simp] theorem State.powerOn_length (s : State) : s.powerOn.insts.length = s.insts.length := by
  simp [State.powerOn]

theorem State.eu?_eq_some {s : State} {k : Nat} {e : Eu} :
    s.eu? k = some e ↔ ∃ n, s.insts[k]? = some n ∧ n.eu = e := by simp [State.eu?]

theorem State.du?_eq_some {s : State} {k : Nat} {d : Du} :
    s.du? k = some d ↔ ∃ n, s.insts[k]? = some n ∧ n.du = d := by simp [State.du?]

/-- Read after write of an Encoder Unit. -/
theorem State.setEu_eu_same {s : State} {k : Nat} {e₀ : Eu} (h : s.eu? k = some e₀) (e : Eu) :
    (s.setEu k e).eu? k = some e := by
  obtain ⟨n, hn, -⟩ := State.eu?_eq_some.mp h
  simp [State.setEu, State.eu?, hn]

/-- Read after write of a Decoder Unit. -/
theorem State.setDu_du_same {s : State} {k : Nat} {d₀ : Du} (h : s.du? k = some d₀) (d : Du) :
    (s.setDu k d).du? k = some d := by
  obtain ⟨n, hn, -⟩ := State.du?_eq_some.mp h
  simp [State.setDu, State.du?, hn]

/-- A write of one Encoder Unit leaves the others. -/
theorem State.setEu_eu_other {j k : Nat} (h : j ≠ k) (e : Eu) (s : State) :
    (s.setEu k e).eu? j = s.eu? j := by
  simp [State.setEu, State.eu?, Ne.symm h]

/-- A write of one Decoder Unit leaves the others. -/
theorem State.setDu_du_other {j k : Nat} (h : j ≠ k) (d : Du) (s : State) :
    (s.setDu k d).du? j = s.du? j := by
  simp [State.setDu, State.du?, Ne.symm h]

/-- A write of an Encoder Unit leaves every Decoder Unit. -/
@[simp] theorem State.setEu_du (j k : Nat) (e : Eu) (s : State) : (s.setEu k e).du? j = s.du? j := by
  by_cases h : k = j
  · subst h; cases hk : s.insts[k]? <;> simp [State.setEu, State.du?, hk]
  · simp [State.setEu, State.du?, h]

/-- A write of a Decoder Unit leaves every Encoder Unit. -/
@[simp] theorem State.setDu_eu (j k : Nat) (d : Du) (s : State) : (s.setDu k d).eu? j = s.eu? j := by
  by_cases h : k = j
  · subst h; cases hk : s.insts[k]? <;> simp [State.setDu, State.eu?, hk]
  · simp [State.setDu, State.eu?, h]

/-- The last of two writes of one Encoder Unit counts. -/
@[simp] theorem State.setEu_setEu (k : Nat) (e e' : Eu) (s : State) :
    (s.setEu k e).setEu k e' = s.setEu k e' := by
  simp only [State.setEu, State.mk.injEq, true_and, and_true]
  rw [List.modify_modify_eq]; rfl

/-- The last of two writes of one Decoder Unit counts. -/
@[simp] theorem State.setDu_setDu (k : Nat) (d d' : Du) (s : State) :
    (s.setDu k d).setDu k d' = s.setDu k d' := by
  simp only [State.setDu, State.mk.injEq, true_and, and_true]
  rw [List.modify_modify_eq]; rfl

/-- Two states agree when the parameter, the agenda, the number of instances and every unit agree. -/
theorem State.ext_units {s t : State} (hw : s.offsetWidth = t.offsetWidth) (ha : s.agenda = t.agenda)
    (he : ∀ k, s.eu? k = t.eu? k) (hd : ∀ k, s.du? k = t.du? k) : s = t := by
  obtain ⟨w, l, a⟩ := s
  obtain ⟨w', l', a'⟩ := t
  simp only [State.eu?, State.du?] at he hd hw ha
  subst hw; subst ha
  congr 1
  apply List.ext_getElem?
  intro k
  have h1 := he k
  have h2 := hd k
  cases hl : l[k]? with
  | none => cases hl' : l'[k]? with
    | none => rfl
    | some n => simp [hl, hl'] at h1
  | some m => cases hl' : l'[k]? with
    | none => simp [hl, hl'] at h1
    | some n =>
      obtain ⟨a, b⟩ := m
      obtain ⟨c, d⟩ := n
      simp_all

/-- The units of the state after power-on reset (R103). -/
theorem State.powerOn_eu {s : State} {k : Nat} {e : Eu} (h : s.eu? k = some e) :
    s.powerOn.eu? k = some Eu.reset := by
  obtain ⟨n, hn, -⟩ := State.eu?_eq_some.mp h
  have hk : k < s.insts.length := (List.getElem?_eq_some_iff.mp hn).1
  simp [State.powerOn, State.eu?, Inst.reset, hk]

theorem State.powerOn_du {s : State} {k : Nat} {d : Du} (h : s.du? k = some d) :
    s.powerOn.du? k = some Du.reset := by
  obtain ⟨n, hn, -⟩ := State.du?_eq_some.mp h
  have hk : k < s.insts.length := (List.getElem?_eq_some_iff.mp hn).1
  simp [State.powerOn, State.du?, Inst.reset, hk]

end Sys2Proof.Machine
end

