-- ==== Sys2Proof/Laws/Ops.lean ====
section
/-! SUPPORT. One law per shared operation that says everything it can do: acting on one unit, the byte guards, the admission. -/

namespace Sys2Proof.Machine

/-- Everything acting on one Encoder Unit can answer as a next state. -/
theorem withEu_eq_next {k : Nat} {s t : State} {f : Eu → Outcome Eu} :
    withEu k s f = .next t ↔ ∃ e e', s.eu? k = some e ∧ f e = .next e' ∧ t = s.setEu k e' := by
  unfold withEu
  cases h : s.eu? k with
  | none => simp
  | some e => cases hf : f e <;> simp [hf, eq_comm]

/-- Everything acting on one Decoder Unit can answer as a next state. -/
theorem withDu_eq_next {k : Nat} {s t : State} {f : Du → Outcome Du} :
    withDu k s f = .next t ↔ ∃ d d', s.du? k = some d ∧ f d = .next d' ∧ t = s.setDu k d' := by
  unfold withDu
  cases h : s.du? k with
  | none => simp
  | some e => cases hf : f e <;> simp [hf, eq_comm]

theorem withEu_of_next {k : Nat} {s : State} {f : Eu → Outcome Eu} {e e' : Eu}
    (h : s.eu? k = some e) (hf : f e = .next e') : withEu k s f = .next (s.setEu k e') :=
  withEu_eq_next.mpr ⟨e, e', h, hf, rfl⟩

theorem withDu_of_next {k : Nat} {s : State} {f : Du → Outcome Du} {d d' : Du}
    (h : s.du? k = some d) (hf : f d = .next d') : withDu k s f = .next (s.setDu k d') :=
  withDu_eq_next.mpr ⟨d, d', h, hf, rfl⟩

theorem withEu_of_refused {k : Nat} {s : State} {f : Eu → Outcome Eu} {e : Eu} {r : Refusal}
    (h : s.eu? k = some e) (hf : f e = .refused r) : withEu k s f = .refused r := by
  simp [withEu, h, hf]

theorem withDu_of_refused {k : Nat} {s : State} {f : Du → Outcome Du} {d : Du} {r : Refusal}
    (h : s.du? k = some d) (hf : f d = .refused r) : withDu k s f = .refused r := by
  simp [withDu, h, hf]

/-- A fault of an action on an Encoder Unit is a fault of that unit. -/
theorem withEu_eq_fault {k : Nat} {s : State} {f : Eu → Outcome Eu} {r : Fault} :
    withEu k s f = .fault r ↔ ∃ e, s.eu? k = some e ∧ f e = .fault r := by
  unfold withEu
  cases h : s.eu? k with
  | none => simp
  | some e => cases hf : f e <;> simp [hf]

/-- A fault of an action on a Decoder Unit is a fault of that unit. -/
theorem withDu_eq_fault {k : Nat} {s : State} {f : Du → Outcome Du} {r : Fault} :
    withDu k s f = .fault r ↔ ∃ d, s.du? k = some d ∧ f d = .fault r := by
  unfold withDu
  cases h : s.du? k with
  | none => simp
  | some e => cases hf : f e <;> simp [hf]

/-- Everything an Encoder Unit's byte step can answer as a next state (R64). -/
theorem Eu.onByte_eq_next {e e' : Eu} {f : Byte → Outcome Eu} :
    e.onByte f = .next e' ↔
      e.status = .busy ∧ e.inOff < e.inLen ∧ ∃ b, inRead e.inBuf e.inOff = some b ∧ f b = .next e' := by
  unfold Eu.onByte
  split
  · rename_i h
    cases hb : inRead e.inBuf e.inOff <;> simp [h]
  · rename_i h
    simp only [reduceCtorEq, false_iff]
    intro hh
    exact h ⟨hh.1, hh.2.1⟩

/-- Everything a Decoder Unit's byte step can answer as a next state (R75). -/
theorem Du.onByte_eq_next {d d' : Du} {f : Byte → Outcome Du} :
    d.onByte f = .next d' ↔
      d.status = .busy ∧ d.inOff < d.inLen ∧ ∃ b, inRead d.inBuf d.inOff = some b ∧ f b = .next d' := by
  unfold Du.onByte
  split
  · rename_i h
    cases hb : inRead d.inBuf d.inOff <;> simp [h]
  · rename_i h
    simp only [reduceCtorEq, false_iff]
    intro hh
    exact h ⟨hh.1, hh.2.1⟩

/-- A start command is admitted exactly when the unit is not BUSY and both lengths fit (R63, R74). -/
theorem startRefusal_eq_none {w a b : Nat} {st : Status} :
    startRefusal w st a b = none ↔ st ≠ .busy ∧ a ≤ maxLength w ∧ b ≤ maxLength w := by
  unfold startRefusal
  split_ifs <;> simp_all

/-- An index inside the input has a byte. -/
theorem inRead_of_lt {buf : List Byte} {i : Nat} (h : i < buf.length) : inRead buf i = some buf[i] := by
  simp [inRead, h]

theorem inRead_eq_some {buf : List Byte} {i : Nat} {b : Byte} :
    inRead buf i = some b ↔ ∃ h : i < buf.length, buf[i] = b := by
  simp [inRead, List.getElem?_eq_some_iff]

end Sys2Proof.Machine
end

