-- ==== Sys2Proof/Laws/Wire.lean ====
section
/-! SUPPORT. Laws of the wire format and of the pure functions: byte order, and the length of what a DECODE produces. -/

namespace Sys2Proof

theorem be32_toNat (a b c d : Byte) :
    (be32 a b c d).toNat = 2 ^ 24 * a.toNat + 2 ^ 16 * b.toNat + 2 ^ 8 * c.toNat + d.toNat := by
  have := a.isLt; have := b.isLt; have := c.isLt; have := d.isLt
  simp only [be32, BitVec.toNat_ofNat]
  omega

/-- The four length bytes of a word assemble to it again (00_scope.md R10). -/
theorem be32_extract (n : Word32) :
    be32 (n.extractLsb' 24 8) (n.extractLsb' 16 8) (n.extractLsb' 8 8) (n.extractLsb' 0 8) = n := by
  apply BitVec.eq_of_toNat_eq
  rw [be32_toNat]
  have := n.isLt
  simp only [BitVec.extractLsb'_toNat, Nat.shiftRight_eq_div_pow]
  omega

namespace Machine

theorem fmt_length (n : Word32) (v : Byte) : (fmt n v).length = Config.blockLen := rfl

/-- The shapes a wire stream's head has (R41, R46): every fact about streams is proved over these four cases. -/
theorem wire_induction {P : List Byte → Prop} (nil : P [])
    (run : ∀ l0 l1 l2 l3 v rest, P rest → P (Config.sentinel :: l0 :: l1 :: l2 :: l3 :: v :: rest))
    (trunc : ∀ t, t.length < 5 → P (Config.sentinel :: t))
    (lit : ∀ b t, b ≠ Config.sentinel → P t → P (b :: t)) (y : List Byte) : P y := by
  induction hn : y.length using Nat.strong_induction_on generalizing y with
  | _ n ih =>
    subst hn
    rcases y with _ | ⟨b, t⟩
    · exact nil
    by_cases hb : b = Config.sentinel
    · subst hb
      rcases t with _ | ⟨l0, _ | ⟨l1, _ | ⟨l2, _ | ⟨l3, _ | ⟨v, rest⟩⟩⟩⟩⟩
      on_goal 6 => exact run l0 l1 l2 l3 v rest (ih _ (by simp; omega) _ rfl)
      all_goals exact trunc _ (by simp)
    · exact lit b t hb (ih _ (by simp) _ rfl)

@[simp] theorem dec_nil (i : Nat) (acc : List Byte) : dec i acc [] = .ok acc := rfl

@[simp] theorem dec_run (i : Nat) (acc : List Byte) (l0 l1 l2 l3 v : Byte) (rest : List Byte) :
    dec i acc (Config.sentinel :: l0 :: l1 :: l2 :: l3 :: v :: rest) =
      dec (i + 6) (acc ++ List.replicate (be32 l0 l1 l2 l3).toNat v) rest := by simp [dec]

theorem dec_trunc (i : Nat) (acc : List Byte) {t : List Byte} (h : t.length < 5) :
    dec i acc (Config.sentinel :: t) = .truncated i := by
  rcases t with _ | ⟨_, _ | ⟨_, _ | ⟨_, _ | ⟨_, _ | ⟨_, _⟩⟩⟩⟩⟩ <;> first | rfl | (simp at h; omega)

theorem dec_lit (i : Nat) (acc : List Byte) {b : Byte} (h : b ≠ Config.sentinel) (t : List Byte) :
    dec i acc (b :: t) = dec (i + 1) (acc ++ [b]) t := by
  rw [dec.eq_def]; simp [h]

@[simp] theorem producedLength_nil : producedLength [] = 0 := rfl

@[simp] theorem producedLength_run (l0 l1 l2 l3 v : Byte) (rest : List Byte) :
    producedLength (Config.sentinel :: l0 :: l1 :: l2 :: l3 :: v :: rest) =
      (be32 l0 l1 l2 l3).toNat + producedLength rest := by simp [producedLength]

theorem producedLength_trunc {t : List Byte} (h : t.length < 5) :
    producedLength (Config.sentinel :: t) = 0 := by
  rcases t with _ | ⟨_, _ | ⟨_, _ | ⟨_, _ | ⟨_, _ | ⟨_, _⟩⟩⟩⟩⟩ <;> first | rfl | (simp at h; omega)

theorem producedLength_lit {b : Byte} (h : b ≠ Config.sentinel) (t : List Byte) :
    producedLength (b :: t) = 1 + producedLength t := by
  rw [producedLength.eq_def]; simp [h]

@[simp] theorem parseUnits_nil (k : Nat) : parseUnits k [] = some [] := rfl

@[simp] theorem parseUnits_run (k : Nat) (l0 l1 l2 l3 v : Byte) (rest : List Byte) :
    parseUnits k (Config.sentinel :: l0 :: l1 :: l2 :: l3 :: v :: rest) =
      (parseUnits k rest).map fun us => .run k (be32 l0 l1 l2 l3) v :: us := by simp [parseUnits]

theorem parseUnits_trunc (k : Nat) {t : List Byte} (h : t.length < 5) :
    parseUnits k (Config.sentinel :: t) = none := by
  rcases t with _ | ⟨_, _ | ⟨_, _ | ⟨_, _ | ⟨_, _ | ⟨_, _⟩⟩⟩⟩⟩ <;> first | rfl | (simp at h; omega)

theorem parseUnits_lit (k : Nat) {b : Byte} (h : b ≠ Config.sentinel) (t : List Byte) :
    parseUnits k (b :: t) = (parseUnits k t).map fun us => .lit k b :: us := by
  rw [parseUnits.eq_def]; simp [h]

@[simp] theorem decode_run (k : Nat) (l0 l1 l2 l3 v : Byte) (rest : List Byte) :
    decode k (Config.sentinel :: l0 :: l1 :: l2 :: l3 :: v :: rest) =
      .ok (.run k (be32 l0 l1 l2 l3) v, rest) := by simp [decode]

theorem decode_trunc (k : Nat) {t : List Byte} (h : t.length < 5) :
    decode k (Config.sentinel :: t) = .ok (.truncated k t, []) := by
  rcases t with _ | ⟨_, _ | ⟨_, _ | ⟨_, _ | ⟨_, _ | ⟨_, _⟩⟩⟩⟩⟩ <;> first | rfl | (simp at h; omega)

theorem decode_lit (k : Nat) {b : Byte} (h : b ≠ Config.sentinel) (t : List Byte) :
    decode k (b :: t) = .ok (.lit k b, t) := by simp [decode, h]

/-- `dec` prepends what was decoded before and shifts the index it reports. -/
theorem dec_shift (y : List Byte) : ∀ (i : Nat) (acc : List Byte),
    dec i acc y = match dec 0 [] y with
      | .ok x => .ok (acc ++ x)
      | .truncated j => .truncated (i + j) := by
  induction y using wire_induction with
  | nil => simp
  | run l0 l1 l2 l3 v rest ih =>
    intro i acc
    rw [dec_run, dec_run, ih (i + 6), ih (0 + 6)]
    generalize (be32 l0 l1 l2 l3).toNat = m
    cases dec 0 [] rest <;> simp; omega
  | trunc t ht => simp [dec_trunc _ _ ht]
  | lit b t hb ih =>
    intro i acc
    rw [dec_lit _ _ hb, dec_lit _ _ hb, ih (i + 1), ih (0 + 1)]
    cases dec 0 [] t <;> simp; omega

/-- A stream that stops at a truncated block decodes without error up to that block's sentinel, and what it decodes to has the
length that was added up. -/
theorem dec_produced (y : List Byte) :
    match dec 0 [] y with
    | .ok x => x.length = producedLength y
    | .truncated i => ∃ x, dec 0 [] (y.take i) = .ok x ∧ x.length = producedLength y := by
  induction y using wire_induction with
  | nil => simp
  | run l0 l1 l2 l3 v rest ih =>
    simp only [dec_run, producedLength_run, Nat.zero_add, List.nil_append]
    rw [dec_shift]
    cases h : dec 0 [] rest with
    | ok x => simp_all
    | truncated j =>
      simp only [h] at ih
      obtain ⟨x, hx, hl⟩ := ih
      refine ⟨List.replicate (be32 l0 l1 l2 l3).toNat v ++ x, ?_, ?_⟩
      · simp only [Nat.add_comm 6 j, List.take_succ_cons, dec_run, List.nil_append]
        rw [dec_shift, hx]
      · simp [hl]
  | trunc t ht => simp [dec_trunc _ _ ht, producedLength_trunc ht]
  | lit b t hb ih =>
    rw [dec_lit _ _ hb, dec_shift]
    cases h : dec 0 [] t with
    | ok x => simp_all [producedLength_lit hb]; omega
    | truncated j =>
      simp only [h] at ih
      obtain ⟨x, hx, hl⟩ := ih
      refine ⟨b :: x, ?_, ?_⟩
      · simp only [Nat.zero_add, Nat.add_comm 1 j, List.take_succ_cons, dec_lit _ _ hb, List.nil_append]
        rw [dec_shift, hx]; rfl
      · simp [hl, producedLength_lit hb]; omega

/-- The admission of DECODE measures the output the rule names (R74): `producedLength` is the length of `producedOutput`. -/
theorem producedLength_eq (y : List Byte) : producedLength y = (producedOutput y).length := by
  have h := dec_produced y
  unfold producedOutput refDecode
  cases hd : dec 0 [] y with
  | ok x => simp_all
  | truncated i =>
    simp only [hd] at h
    obtain ⟨x, hx, hl⟩ := h
    simp [hx, hl]

end Machine

end Sys2Proof
end

