-- ==== Sys2Proof/Laws/PerInstr.lean ====
section
/-! SUPPORT. What holds of every instruction as syntax, one lemma per constructor. -/

namespace Sys2Proof.Laws.WireForm

/-- An instruction has bytes exactly if it is a wire unit or the prefix of one (30_encoding.md R50), and then a well-formed one has 1
to 6 of them (R42, R43, R46). -/
def Statement (i : Instr) : Prop :=
  (Sys2Proof.encode i).isSome = i.isWire ∧
  ∀ bs, Sys2Proof.encode i = some bs → i.wf = true → 1 ≤ bs.length ∧ bs.length ≤ Config.blockLen

theorem run (k : Nat) (n : Word32) (v : Byte) : Statement (.run k n v) :=
  ⟨rfl, fun bs h _ => by cases h; simp [Config.blockLen]⟩

theorem truncated (k : Nat) (tail : List Byte) : Statement (.truncated k tail) := by
  refine ⟨rfl, fun bs h hw => ?_⟩
  cases h
  simp only [Instr.wf, decide_eq_true_eq] at hw
  simp only [List.length_cons, Config.blockLen]
  omega

theorem lit (k : Nat) (v : Byte) : Statement (.lit k v) :=
  ⟨rfl, fun bs h _ => by cases h; simp [Config.blockLen]⟩

theorem encode (k : Nat) (x : List Byte) : Statement (.encode k x) :=
  ⟨rfl, fun _ h _ => by cases h⟩

theorem decode (k : Nat) (y : List Byte) : Statement (.decode k y) :=
  ⟨rfl, fun _ h _ => by cases h⟩

theorem reset (t : ResetTarget) : Statement (.reset t) :=
  ⟨rfl, fun _ h _ => by cases h⟩

theorem euStep (k : Nat) : Statement (.euStep k) :=
  ⟨rfl, fun _ h _ => by cases h⟩

theorem euFinish (k : Nat) : Statement (.euFinish k) :=
  ⟨rfl, fun _ h _ => by cases h⟩

theorem rdOpen (k : Nat) (b : Byte) : Statement (.rdOpen k b) :=
  ⟨rfl, fun _ h _ => by cases h⟩

theorem rdExtend (k : Nat) (b : Byte) : Statement (.rdExtend k b) :=
  ⟨rfl, fun _ h _ => by cases h⟩

theorem rdChunk (k : Nat) (b : Byte) : Statement (.rdChunk k b) :=
  ⟨rfl, fun _ h _ => by cases h⟩

theorem rdBreak (k : Nat) (b : Byte) : Statement (.rdBreak k b) :=
  ⟨rfl, fun _ h _ => by cases h⟩

theorem rdFlush (k : Nat) : Statement (.rdFlush k) :=
  ⟨rfl, fun _ h _ => by cases h⟩

theorem duLit (k : Nat) : Statement (.duLit k) :=
  ⟨rfl, fun _ h _ => by cases h⟩

theorem duSent (k : Nat) : Statement (.duSent k) :=
  ⟨rfl, fun _ h _ => by cases h⟩

theorem duLen (k : Nat) : Statement (.duLen k) :=
  ⟨rfl, fun _ h _ => by cases h⟩

theorem duVal (k : Nat) : Statement (.duVal k) :=
  ⟨rfl, fun _ h _ => by cases h⟩

theorem duFinishOk (k : Nat) : Statement (.duFinishOk k) :=
  ⟨rfl, fun _ h _ => by cases h⟩

theorem duFinishTrunc (k : Nat) : Statement (.duFinishTrunc k) :=
  ⟨rfl, fun _ h _ => by cases h⟩

theorem fmt (k : Nat) (n : Word32) (v : Byte) : Statement (.fmt k n v) :=
  ⟨rfl, fun _ h _ => by cases h⟩

end Sys2Proof.Laws.WireForm
end

