-- ==== Sys2Proof/Laws/Units.lean ====
section
/-! SUPPORT. Everything an instruction can do, said once: the effects on an Encoder Unit and on a Decoder Unit as two relations with one
case per instruction, and the inversion law `exec_next_cases`. Invariants and frames are case analyses over it. -/

namespace Sys2Proof.Machine

/-! ## The run detector's frame -/

@[simp] theorem Eu.rdByte_status (b : Byte) (e : Eu) : (e.rdByte b).1.status = e.status := by
  unfold Eu.rdByte; split_ifs <;> rfl
@[simp] theorem Eu.rdByte_inBuf (b : Byte) (e : Eu) : (e.rdByte b).1.inBuf = e.inBuf := by
  unfold Eu.rdByte; split_ifs <;> rfl
@[simp] theorem Eu.rdByte_inLen (b : Byte) (e : Eu) : (e.rdByte b).1.inLen = e.inLen := by
  unfold Eu.rdByte; split_ifs <;> rfl
@[simp] theorem Eu.rdByte_inOff (b : Byte) (e : Eu) : (e.rdByte b).1.inOff = e.inOff := by
  unfold Eu.rdByte; split_ifs <;> rfl
@[simp] theorem Eu.rdByte_outBuf (b : Byte) (e : Eu) : (e.rdByte b).1.outBuf = e.outBuf := by
  unfold Eu.rdByte; split_ifs <;> rfl
@[simp] theorem Eu.rdByte_ret (b : Byte) (e : Eu) : (e.rdByte b).1.ret = e.ret := by
  unfold Eu.rdByte; split_ifs <;> rfl

/-- MAX_RUN is the largest value of the 32-bit register (R22). -/
theorem lt_maxRunWord {w : Word32} : w < Config.maxRunWord ↔ w.toNat < Config.maxRun := by
  rw [BitVec.lt_def]; rfl

theorem eq_maxRunWord {w : Word32} : w = Config.maxRunWord ↔ w.toNat = Config.maxRun :=
  ⟨fun h => by subst h; rfl, fun h => BitVec.eq_of_toNat_eq h⟩

theorem le_maxRun (w : Word32) : w.toNat ≤ Config.maxRun := by
  have := w.isLt
  simp only [Config.maxRun]
  omega

/-- The run detector's four byte operations, by the table of R56. -/
theorem Eu.rdByte_open {b : Byte} {e : Eu} (h : e.runOpen = false) : e.rdByte b = e.rdOpen b := by
  simp [Eu.rdByte, h]
theorem Eu.rdByte_extend {b : Byte} {e : Eu} (h : e.runOpen = true) (hb : b = e.runVal)
    (hl : e.runLen.toNat < Config.maxRun) : e.rdByte b = e.rdExtend := by
  simp [Eu.rdByte, h, hb, lt_maxRunWord.mpr hl]
theorem Eu.rdByte_chunk {b : Byte} {e : Eu} (h : e.runOpen = true) (hb : b = e.runVal)
    (hl : e.runLen.toNat = Config.maxRun) : e.rdByte b = e.rdChunk := by
  have : ¬e.runLen < Config.maxRunWord := by rw [lt_maxRunWord]; omega
  simp [Eu.rdByte, h, hb, this]
theorem Eu.rdByte_break {b : Byte} {e : Eu} (h : e.runOpen = true) (hb : b ≠ e.runVal) :
    e.rdByte b = e.rdBreak b := by
  simp [Eu.rdByte, h, hb]

/-! ## What an instruction does to its unit -/

/-- What instruction `i` does to the Encoder Unit of instance `k`, with OFFSET_WIDTH `w`. -/
inductive EuEffect (w k : Nat) (e : Eu) : Instr → Eu → Prop where
  | encode {x : List Byte} (hs : e.status ≠ .busy) (hx : x.length ≤ maxLength w)
      (hy : (refEncode x).length ≤ maxLength w) : EuEffect w k e (.encode k x) (Eu.start x)
  | reset : EuEffect w k e (.reset (.one { inst := k, kind := .eu })) Eu.reset
  | byteStep {b : Byte} (hs : e.status = .busy) (hi : e.inOff < e.inLen) (hb : inRead e.inBuf e.inOff = some b) :
      EuEffect w k e (.euStep k) (((e.rdByte b).1.outAppend (e.rdByte b).2).advance 1)
  | finish (hs : e.status = .busy) (hi : e.inOff = e.inLen) :
      EuEffect w k e (.euFinish k) { e.rdFlush.1.outAppend e.rdFlush.2 with status := .done }
  | rdOpen {b : Byte} (h : e.selectsOpen) : EuEffect w k e (.rdOpen k b) (Eu.keepReturned (e.rdOpen b))
  | rdExtend {b : Byte} (h : e.selectsExtend b) : EuEffect w k e (.rdExtend k b) (Eu.keepReturned e.rdExtend)
  | rdChunk {b : Byte} (h : e.selectsChunk b) : EuEffect w k e (.rdChunk k b) (Eu.keepReturned e.rdChunk)
  | rdBreak {b : Byte} (h : e.selectsBreak b) : EuEffect w k e (.rdBreak k b) (Eu.keepReturned (e.rdBreak b))
  | rdFlush : EuEffect w k e (.rdFlush k) (Eu.keepReturned e.rdFlush)
  | fmt {n : Word32} {v : Byte} : EuEffect w k e (.fmt k n v) (Eu.keepReturned (e, fmt n v))

/-- What instruction `i` does to the Decoder Unit of instance `k`, with OFFSET_WIDTH `w`. -/
inductive DuEffect (w k : Nat) (d : Du) : Instr → Du → Prop where
  | decode {y : List Byte} (hs : d.status ≠ .busy) (hy : y.length ≤ maxLength w)
      (hx : producedLength y ≤ maxLength w) : DuEffect w k d (.decode k y) (Du.start y)
  | reset : DuEffect w k d (.reset (.one { inst := k, kind := .du })) Du.reset
  | lit {b : Byte} (hs : d.status = .busy) (hi : d.inOff < d.inLen) (hb : inRead d.inBuf d.inOff = some b)
      (hp : d.phase = .head) (hv : b ≠ Config.sentinel) : DuEffect w k d (.duLit k) ((d.outAppend [b]).advance 1)
  | sent (hs : d.status = .busy) (hi : d.inOff < d.inLen) (hb : inRead d.inBuf d.inOff = some Config.sentinel)
      (hp : d.phase = .head) :
      DuEffect w k d (.duSent k) ({ d with blkOff := d.inOff, lenAcc := 0, phase := .len0 }.advance 1)
  | len {b : Byte} (hs : d.status = .busy) (hi : d.inOff < d.inLen) (hb : inRead d.inBuf d.inOff = some b)
      (hp : d.phase ≠ .head) (hv : d.phase ≠ .val) :
      DuEffect w k d (.duLen k)
        ({ d with lenAcc := d.lenAcc * 256 + b.setWidth 32, phase := d.phase.afterLen }.advance 1)
  | val {b : Byte} (hs : d.status = .busy) (hi : d.inOff < d.inLen) (hb : inRead d.inBuf d.inOff = some b)
      (hp : d.phase = .val) :
      DuEffect w k d (.duVal k)
        ({ d.outAppend (List.replicate d.lenAcc.toNat b) with lenAcc := 0, phase := .head }.advance 1)
  | finishOk (hs : d.status = .busy) (hi : d.inOff = d.inLen) (hp : d.phase = .head) :
      DuEffect w k d (.duFinishOk k) { d with status := .done }
  | finishTrunc (hs : d.status = .busy) (hi : d.inOff = d.inLen) (hp : d.phase ≠ .head) :
      DuEffect w k d (.duFinishTrunc k) (d.raiseTruncated d.blkOff)
  | wireRun {n : Word32} {v : Byte} (hs : d.status = .busy) (hp : d.phase = .head) (hi : d.inOff + Config.blockLen ≤ d.inLen) :
      DuEffect w k d (.run k n v)
        ({ d.outAppend (List.replicate n.toNat v) with blkOff := d.inOff, lenAcc := 0, phase := .head }.advance
          Config.blockLen)
  | wireTruncated {tail : List Byte} (ht : tail.length < 5) (hs : d.status = .busy) (hp : d.phase = .head)
      (hi : d.inOff + 1 + tail.length = d.inLen) :
      DuEffect w k d (.truncated k tail) (({ d with blkOff := d.inOff }.advance (1 + tail.length)).raiseTruncated d.inOff)
  | wireLit {v : Byte} (hv : v ≠ Config.sentinel) (hs : d.status = .busy) (hp : d.phase = .head)
      (hi : d.inOff + 1 ≤ d.inLen) : DuEffect w k d (.lit k v) ((d.outAppend [v]).advance 1)

/-- Everything an instruction that completes can have done: one effect on one unit, every other unit as it was, or a power-on
reset. -/
theorem exec_next_cases {i : Instr} {s t : State} (h : exec i s = .next t) :
    (∃ k e e', s.eu? k = some e ∧ t = s.setEu k e' ∧ EuEffect s.offsetWidth k e i e') ∨
    (∃ k d d', s.du? k = some d ∧ t = s.setDu k d' ∧ DuEffect s.offsetWidth k d i d') ∨
    (i = .reset .powerOn ∧ t = s.powerOn) := by
  have onEu : ∀ {k : Nat} {f : Eu → Outcome Eu} (hf : ∀ e e', f e = .next e' → EuEffect s.offsetWidth k e i e'),
      withEu k s f = .next t →
      (∃ k e e', s.eu? k = some e ∧ t = s.setEu k e' ∧ EuEffect s.offsetWidth k e i e') := by
    intro k f hf hw
    obtain ⟨e, e', he, hfe, ht⟩ := withEu_eq_next.mp hw
    exact ⟨k, e, e', he, ht, hf e e' hfe⟩
  have onDu : ∀ {k : Nat} {f : Du → Outcome Du} (hf : ∀ d d', f d = .next d' → DuEffect s.offsetWidth k d i d'),
      withDu k s f = .next t →
      (∃ k d d', s.du? k = some d ∧ t = s.setDu k d' ∧ DuEffect s.offsetWidth k d i d') := by
    intro k f hf hw
    obtain ⟨d, d', hd, hfd, ht⟩ := withDu_eq_next.mp hw
    exact ⟨k, d, d', hd, ht, hf d d' hfd⟩
  cases i with
  | run k n v =>
    refine .inr (.inl (onDu (k := k) ?_ h))
    intro d d' hd
    split_ifs at hd with hc
    cases hd
    exact .wireRun hc.1 hc.2.1 hc.2.2
  | truncated k tail =>
    refine .inr (.inl (onDu (k := k) ?_ h))
    intro d d' hd
    split_ifs at hd with ht hc
    cases hd
    exact .wireTruncated (by omega) hc.1 hc.2.1 hc.2.2
  | lit k v =>
    refine .inr (.inl (onDu (k := k) ?_ h))
    intro d d' hd
    split_ifs at hd with hv hc
    cases hd
    exact .wireLit hv hc.1 hc.2.1 hc.2.2
  | encode k x =>
    refine .inl (onEu (k := k) ?_ h)
    intro e e' he
    split at he
    · cases he
    · cases he
      rename_i hr
      obtain ⟨h1, h2, h3⟩ := startRefusal_eq_none.mp hr
      exact .encode h1 h2 h3
  | decode k y =>
    refine .inr (.inl (onDu (k := k) ?_ h))
    intro d d' hd
    split at hd
    · cases hd
    · cases hd
      rename_i hr
      obtain ⟨h1, h2, h3⟩ := startRefusal_eq_none.mp hr
      exact .decode h1 h2 h3
  | reset tg =>
    cases tg with
    | one u =>
      obtain ⟨k, kind⟩ := u
      cases kind with
      | eu =>
        refine .inl (onEu (k := k) (f := fun _ => .next Eu.reset) ?_ h)
        rintro e e' ⟨⟩
        exact .reset
      | du =>
        refine .inr (.inl (onDu (k := k) (f := fun _ => .next Du.reset) ?_ h))
        rintro d d' ⟨⟩
        exact .reset
    | powerOn => cases h; exact .inr (.inr ⟨rfl, rfl⟩)
  | euStep k =>
    refine .inl (onEu (k := k) ?_ h)
    intro e e' he
    obtain ⟨hs, hi, b, hb, hf⟩ := Eu.onByte_eq_next.mp he
    cases hf
    exact .byteStep hs hi hb
  | euFinish k =>
    refine .inl (onEu (k := k) ?_ h)
    intro e e' he
    unfold Eu.finishStep at he
    split_ifs at he with hc
    cases he
    exact .finish hc.1 hc.2
  | rdOpen k b =>
    refine .inl (onEu (k := k) ?_ h)
    intro e e' he
    split_ifs at he with hc
    cases he
    exact .rdOpen hc
  | rdExtend k b =>
    refine .inl (onEu (k := k) ?_ h)
    intro e e' he
    split_ifs at he with hc
    cases he
    exact .rdExtend hc
  | rdChunk k b =>
    refine .inl (onEu (k := k) ?_ h)
    intro e e' he
    split_ifs at he with hc
    cases he
    exact .rdChunk hc
  | rdBreak k b =>
    refine .inl (onEu (k := k) ?_ h)
    intro e e' he
    split_ifs at he with hc
    cases he
    exact .rdBreak hc
  | rdFlush k =>
    refine .inl (onEu (k := k) (f := fun e => .next (Eu.keepReturned e.rdFlush)) ?_ h)
    rintro e e' ⟨⟩
    exact .rdFlush
  | duLit k =>
    refine .inr (.inl (onDu (k := k) ?_ h))
    intro d d' hd
    obtain ⟨hs, hi, b, hb, hf⟩ := Du.onByte_eq_next.mp hd
    split_ifs at hf with hc
    cases hf
    exact .lit hs hi hb hc.1 hc.2
  | duSent k =>
    refine .inr (.inl (onDu (k := k) ?_ h))
    intro d d' hd
    obtain ⟨hs, hi, b, hb, hf⟩ := Du.onByte_eq_next.mp hd
    split_ifs at hf with hc
    cases hf
    exact .sent hs hi (hc.2 ▸ hb) hc.1
  | duLen k =>
    refine .inr (.inl (onDu (k := k) ?_ h))
    intro d d' hd
    obtain ⟨hs, hi, b, hb, hf⟩ := Du.onByte_eq_next.mp hd
    cases hp : d.phase <;> simp only [hp, Phase.lenIndex] at hf <;> cases hf <;>
      exact hp ▸ .len hs hi hb (by simp [hp]) (by simp [hp])
  | duVal k =>
    refine .inr (.inl (onDu (k := k) ?_ h))
    intro d d' hd
    obtain ⟨hs, hi, b, hb, hf⟩ := Du.onByte_eq_next.mp hd
    split_ifs at hf with hc
    cases hf
    exact .val hs hi hb hc
  | duFinishOk k =>
    refine .inr (.inl (onDu (k := k) ?_ h))
    intro d d' hd
    unfold Du.finishOkStep at hd
    split_ifs at hd with hc
    cases hd
    exact .finishOk hc.1 hc.2.1 hc.2.2
  | duFinishTrunc k =>
    refine .inr (.inl (onDu (k := k) ?_ h))
    intro d d' hd
    unfold Du.finishTruncStep at hd
    split_ifs at hd with hc
    cases hd
    exact .finishTrunc hc.1 hc.2.1 hc.2.2
  | fmt k n v =>
    refine .inl (onEu (k := k) (f := fun e => .next (Eu.keepReturned (e, Sys2Proof.Machine.fmt n v))) ?_ h)
    rintro e e' ⟨⟩
    exact .fmt

end Sys2Proof.Machine
end

