-- ==== Sys2Proof/Tests/Slice0.lean ====
section
/-! SUPPORT. Tests of single steps on small states, with expected results from spec/95_test_vectors.md (each test names its vector) and
from the encodings of spec/30_encoding.md; and, for each statement with hypotheses, a witness that meets them. -/

namespace Sys2Proof.Tests

open Sys2Proof Sys2Proof.Machine

/-! ## Small states -/

/-- Two instances right after reset, with 33-bit offsets. -/
def base : State := { offsetWidth := 33, insts := [Inst.reset, Inst.reset], agenda := [] }

/-- `base` with instance 0's Encoder Unit replaced. -/
def baseEu (e : Eu) : State := base.setEu 0 e

/-- `base` with instance 0's Decoder Unit replaced. -/
def baseDu (d : Du) : State := base.setDu 0 d

/-- A BUSY Encoder Unit at index `off` of `x`, with the register tuple of spec/95. -/
def eu (x : List Byte) (off : Nat) (o : Bool) (v : Byte) (n : Word32) (sp : Bool) : Eu :=
  { Eu.start x with inOff := off, runOpen := o, runVal := v, runLen := n, split := sp }

/-- A BUSY Decoder Unit at index `off` of `y`, with the register tuple of spec/95. -/
def du (y : List Byte) (off : Nat) (p : Phase) (acc : Word32) (blk : Nat) : Du :=
  { Du.start y with inOff := off, phase := p, lenAcc := acc, blkOff := blk }

/-- Instance 0's Encoder Unit after a step that completes. -/
def euOf (o : Outcome State) : Option Eu :=
  match o with
  | .next t => t.eu? 0
  | .fault _ => none
  | .refused _ => none

/-- Instance 0's Decoder Unit after a step that completes. -/
def duOf (o : Outcome State) : Option Du :=
  match o with
  | .next t => t.du? 0
  | .fault _ => none
  | .refused _ => none

/-- Why a step was refused. -/
def refusalOf (o : Outcome State) : Option Refusal :=
  match o with
  | .next _ => none
  | .fault _ => none
  | .refused r => some r

/-- Did a step complete? -/
def completes (o : Outcome State) : Bool :=
  match o with
  | .next _ => true
  | .fault _ => false
  | .refused _ => false

/-! ## Well-formedness: each check refuses an ill-formed term (R42, R46) -/

theorem test_wf_refuses_sentinel_literal : (Instr.lit 0 0x04).wf = false := by decide
theorem test_wf_refuses_long_truncated_tail : (Instr.truncated 0 [0, 0, 0, 0, 0]).wf = false := by decide
theorem test_exec_refuses_ill_formed :
    refusalOf (exec (.lit 0 0x04) (baseDu (du [4] 0 .head 0 0))) = some .notAWireUnit ∧
    refusalOf (exec (.truncated 0 [0, 0, 0, 0, 0]) (baseDu (du [4, 0, 0, 0, 0, 0] 0 .head 0 0))) = some .notAWireUnit := by
  decide

/-! ## Decoding, from words written out by the tables of R42, R43 and R46 -/

/-- RUN 6, 65: `00000100 | 00000000 00000000 00000000 00000110 | 01000001` (R43). -/
theorem test_decode_run : decodeTableWord 48 0b000001000000000000000000000000000000011001000001 = some (.run 0 6 65) := by decide
/-- RUN 0x01020304, 4, vector F9: the byte order of the length field (R31). -/
theorem test_decode_run_byte_order : decode 0 [4, 1, 2, 3, 4, 4, 9] = .ok (.run 0 16909060 4, [9]) := by rfl
/-- LIT 104: `01101000` (R42). -/
theorem test_decode_lit : decodeTableWord 8 0b01101000 = some (.lit 0 104) := by decide
/-- LIT 0 and LIT 255: the ends of the range (R42). -/
theorem test_decode_lit_ends : decode 0 [0] = .ok (.lit 0 0, []) ∧ decode 0 [255, 4] = .ok (.lit 0 255, [4]) := ⟨rfl, rfl⟩
/-- TRUNCATED: `00000100` and the end of the stream; and with four bytes after it (R46). -/
theorem test_decode_truncated :
    decodeTableWord 8 0b00000100 = some (.truncated 0 []) ∧
    decode 0 [4, 0, 0, 0, 1] = .ok (.truncated 0 [0, 0, 0, 1], []) := ⟨by decide, rfl⟩
/-- The encoder on the same units (F2, F10). -/
theorem test_encode_units :
    encode (.run 0 1 4) = some [4, 0, 0, 0, 1, 4] ∧ encode (.run 0 0xFFFFFFFF 255) = some [4, 255, 255, 255, 255, 255] ∧
    encode (.lit 0 104) = some [104] ∧ encode (.truncated 0 [0, 0]) = some [4, 0, 0] := by decide

/-! ## One step of each instruction -/

/-- P2, step 1: LIT 104. -/
theorem test_lit : duOf (exec (.lit 0 104) (baseDu (du [104, 101] 0 .head 0 0))) =
    some { du [104, 101] 1 .head 0 0 with outBuf := [104] } := by decide
/-- DV4: RUN 3, 65. -/
theorem test_run : duOf (exec (.run 0 3 65) (baseDu (du [4, 0, 0, 0, 3, 65] 0 .head 0 0))) =
    some { du [4, 0, 0, 0, 3, 65] 6 .head 0 0 with outBuf := [65, 65, 65] } := by decide
/-- DV17: `[65, 4, 0, 0, 0, 1]` ends in ERROR at offset 1 with the output of the units before. -/
theorem test_truncated :
    duOf (exec (.truncated 0 [0, 0, 0, 1]) (baseDu { du [65, 4, 0, 0, 0, 1] 1 .head 0 0 with outBuf := [65] })) =
    some { du [65, 4, 0, 0, 0, 1] 6 .head 0 1 with
           outBuf := [65], status := .error, errCode := .truncated, errOffset := 1 } := by decide
/-- C1 and C5. -/
theorem test_encode :
    euOf (exec (.encode 0 [1, 2]) base) = some (eu [1, 2] 0 false 0 0 false) ∧
    euOf (exec (.encode 0 []) (baseEu { Eu.reset with status := .done, outBuf := [65] })) =
      some (eu [] 0 false 0 0 false) := by decide
/-- C2 and C6: refused while BUSY, and when the input is too long for OFFSET_WIDTH. -/
theorem test_encode_refused :
    refusalOf (exec (.encode 0 [3]) (baseEu (eu [1] 0 false 0 0 false))) = some .startWhileBusy ∧
    refusalOf (exec (.encode 0 [1, 2]) { base with offsetWidth := 1 }) = some .inputTooLong ∧
    refusalOf (exec (.encode 0 [4]) { base with offsetWidth := 2 }) = some .outputTooLong := by decide
/-- C3. -/
theorem test_decode :
    duOf (exec (.decode 0 []) (baseDu { Du.reset with status := .error, errCode := .truncated, errOffset := 7 })) =
    some (du [] 0 .head 0 0) := by decide
/-- Refused when the output would be too long, without building it (DV10: 67372036 bytes). -/
theorem test_decode_refused :
    refusalOf (exec (.decode 0 [4, 4, 4, 4, 4, 4]) { base with offsetWidth := 26 }) = some .outputTooLong := by decide
/-- C4, and the example of R103. -/
theorem test_reset :
    duOf (exec (.reset (.one { inst := 0, kind := .du })) (baseDu { du [1, 2, 3, 4] 3 .head 0 0 with outBuf := [1, 2, 3] })) =
      some Du.reset ∧
    duOf (exec (.reset (.one { inst := 0, kind := .du }))
      (baseDu { Du.reset with status := .error, errCode := .truncated, errOffset := 7 })) = some Du.reset := by decide
/-- Power-on reset reaches the other kind of unit too. -/
theorem test_reset_power_on : euOf (exec (.reset .powerOn) (baseEu (eu [1] 1 true 1 1 false))) = some Eu.reset := by decide
/-- The example of R65. -/
theorem test_eu_step :
    euOf (exec (.euStep 0) (baseEu (eu [104, 101, 108, 108, 108, 108, 111] 6 true 0x6C 4 false))) =
    some { eu [104, 101, 108, 108, 108, 108, 111] 7 true 0x6F 1 false with outBuf := [108, 108, 108, 108] } := by decide
/-- RD4 as a byte step: the 32-bit counter is full. -/
theorem test_eu_step_chunk :
    euOf (exec (.euStep 0) (baseEu (eu [65] 0 true 65 0xFFFFFFFF false))) =
    some { eu [65] 1 true 65 1 true with outBuf := [4, 255, 255, 255, 255, 65] } := by decide
/-- The example of R66. -/
theorem test_eu_finish :
    euOf (exec (.euFinish 0) (baseEu (eu [111] 1 true 0x6F 1 false))) =
    some { eu [111] 1 false 0 0 false with outBuf := [111], status := .done } := by decide
/-- RD1. -/
theorem test_rd_open : euOf (exec (.rdOpen 0 4) (baseEu (eu [4] 0 false 0 0 false))) = some (eu [4] 0 true 4 1 false) := by decide
/-- RD2 and RD3. -/
theorem test_rd_extend :
    euOf (exec (.rdExtend 0 65) (baseEu (eu [65] 0 true 65 5 false))) = some (eu [65] 0 true 65 6 false) ∧
    euOf (exec (.rdExtend 0 65) (baseEu (eu [65] 0 true 65 4294967294 false))) = some (eu [65] 0 true 65 4294967295 false) := by
  decide
/-- RD5. -/
theorem test_rd_chunk :
    euOf (exec (.rdChunk 0 65) (baseEu (eu [65] 0 true 65 4294967295 true))) =
    some { eu [65] 0 true 65 1 true with ret := [4, 255, 255, 255, 255, 65] } := by decide
/-- RD6 and RD9: a short run as literals, a split remainder as a run-block. -/
theorem test_rd_break :
    euOf (exec (.rdBreak 0 66) (baseEu (eu [66] 0 true 65 5 false))) =
      some { eu [66] 0 true 66 1 false with ret := [65, 65, 65, 65, 65] } ∧
    euOf (exec (.rdBreak 0 66) (baseEu (eu [66] 0 true 65 3 true))) =
      some { eu [66] 0 true 66 1 false with ret := [4, 0, 0, 0, 3, 65] } := by decide
/-- RD8: a sentinel run of 2. -/
theorem test_rd_break_sentinel :
    euOf (exec (.rdBreak 0 65) (baseEu (eu [65] 0 true 4 2 false))) =
    some { eu [65] 0 true 65 1 false with ret := [4, 0, 0, 0, 2, 4] } := by decide
/-- RD10 and RD12. -/
theorem test_rd_flush :
    euOf (exec (.rdFlush 0) (baseEu (eu [] 0 false 0 0 false))) = some (eu [] 0 false 0 0 false) ∧
    euOf (exec (.rdFlush 0) (baseEu (eu [] 0 true 65 4294967295 true))) =
      some { eu [] 0 false 0 0 false with ret := [4, 255, 255, 255, 255, 65] } := by decide
/-- An operation the table of R56 does not select has no transition. -/
theorem test_rd_not_selected :
    refusalOf (exec (.rdExtend 0 65) (baseEu (eu [65] 0 true 65 4294967295 false))) = some .notSelected := by decide
/-- DU.LIT on the top byte value (R76). -/
theorem test_du_lit : duOf (exec (.duLit 0) (baseDu (du [255] 0 .head 0 0))) =
    some { du [255] 1 .head 0 0 with outBuf := [255] } := by decide
/-- The example of R77. -/
theorem test_du_sent : duOf (exec (.duSent 0) (baseDu (du [104, 101, 4] 2 .head 0 0))) =
    some (du [104, 101, 4] 3 .len0 0 2) := by decide
/-- The example of R78; and a length byte 0x04 is data (DV6). -/
theorem test_du_len :
    duOf (exec (.duLen 0) (baseDu (du [1, 1, 4, 0, 0, 0, 16] 6 .len3 0 2))) = some (du [1, 1, 4, 0, 0, 0, 16] 7 .val 16 2) ∧
    duOf (exec (.duLen 0) (baseDu (du [4, 4] 1 .len0 0 0))) = some (du [4, 4] 2 .len1 4 0) := by decide
/-- The accumulator shifts by a byte: LEN3 after 0x010203 (F9). -/
theorem test_du_len_shifts :
    duOf (exec (.duLen 0) (baseDu (du [4, 1, 2, 3, 4] 4 .len3 0x010203 0))) = some (du [4, 1, 2, 3, 4] 5 .val 0x01020304 0) := by
  decide
/-- DV3 and DV5: length 0, and the value 0x04. -/
theorem test_du_val :
    duOf (exec (.duVal 0) (baseDu (du [4, 0, 0, 0, 0, 65] 5 .val 0 0))) = some (du [4, 0, 0, 0, 0, 65] 6 .head 0 0) ∧
    duOf (exec (.duVal 0) (baseDu (du [4, 0, 0, 0, 2, 4] 5 .val 2 0))) =
      some { du [4, 0, 0, 0, 2, 4] 6 .head 0 0 with outBuf := [4, 4] } := by decide
/-- C3, second step: the empty input. -/
theorem test_du_finish_ok : duOf (exec (.duFinishOk 0) (baseDu (du [] 0 .head 0 0))) =
    some { du [] 0 .head 0 0 with status := .done } := by decide
/-- P3, step 5. -/
theorem test_du_finish_trunc :
    duOf (exec (.duFinishTrunc 0) (baseDu { du [104, 4, 0, 0] 4 .len2 0 1 with outBuf := [104] })) =
    some { du [104, 4, 0, 0] 4 .head 0 1 with
           outBuf := [104], status := .error, errCode := .truncated, errOffset := 1 } := by decide
/-- F7 and F3. -/
theorem test_fmt :
    euOf (exec (.fmt 0 256 1) base) = some { Eu.reset with ret := [4, 0, 0, 1, 0, 1] } ∧
    euOf (exec (.fmt 0 4 4) base) = some { Eu.reset with ret := [4, 0, 0, 0, 4, 4] } := by decide
/-- A unit of another instance, and an instance that is not there (R100). -/
theorem test_other_instance :
    euOf (exec (.encode 1 [7]) base) = some Eu.reset ∧ refusalOf (exec (.encode 2 [7]) base) = some .noSuchInstance := by decide

/-! ## The pure functions -/

/-- T7, T9 and T11. -/
theorem test_seg :
    seg 65 4294967296 = [4, 255, 255, 255, 255, 65, 4, 0, 0, 0, 1, 65] ∧
    seg 65 8589934590 = [4, 255, 255, 255, 255, 65, 4, 255, 255, 255, 255, 65] ∧
    seg 4 4294967301 = [4, 255, 255, 255, 255, 4, 4, 0, 0, 0, 6, 4] := by decide
/-- S7, E12 and E14. -/
theorem test_reference_encode :
    refEncode [104, 101, 108, 108, 108, 108, 111] = [104, 101, 108, 108, 108, 108, 111] ∧
    refEncode [65, 65, 4, 4, 65] = [65, 65, 4, 0, 0, 0, 2, 4, 65] ∧
    refEncode [0, 0, 0, 0, 0, 4, 0, 0, 0, 0, 0, 0] = [0, 0, 0, 0, 0, 4, 0, 0, 0, 1, 4, 4, 0, 0, 0, 6, 0] := by decide
/-- DV7, DV19 and DV20. -/
theorem test_reference_decode :
    refDecode [65, 4, 0, 0, 0, 6, 66, 67] = .ok [65, 66, 66, 66, 66, 66, 66, 67] ∧
    refDecode [4, 0, 0, 0, 0, 4, 4, 0, 0] = .truncated 6 ∧ refDecode [1, 2, 3, 4] = .truncated 3 := by decide

/-! ## The machine's step -/

/-- A host command on the agenda, then the unit's own step. -/
theorem test_step_host : euOf (step { base with agenda := [.host (.encode 0 [7])] }) = some (eu [7] 0 false 0 0 false) := by decide
theorem test_step_idle_runs_busy_unit :
    euOf (step (baseEu (eu [7] 0 false 0 0 false))) = some (eu [7] 1 true 7 1 false) := by decide
/-- A table word placed for the first step after reset runs. -/
theorem test_fetch_word :
    duOf (step (State.reset.withFetchWord 48 0x040000000241)) =
      some { du [4, 0, 0, 0, 2, 65] 6 .head 0 0 with outBuf := [65, 65] } ∧
    duOf (step (State.reset.withFetchWord 8 0x04)) =
      some { du [4] 1 .head 0 0 with status := .error, errCode := .truncated } := by decide

/-! ## Witnesses: for each statement with hypotheses, states and operands that meet them, clause by clause -/

theorem witness_DecodeInvertsEncode :
    (Instr.lit 0 3).wf = true ∧ (Instr.lit 0 5).wf = true ∧ (Instr.truncated 0 []).wf = true ∧
    (Instr.truncated 0 [4, 4, 4, 4]).wf = true := by decide

theorem witness_EncodeInvertsDecode :
    decode 0 [3, 4] = .ok (.lit 0 3, [4]) ∧ decode 0 [4, 0, 0, 0, 1, 9, 9] = .ok (.run 0 1 9, [9]) ∧
    decode 0 [4, 0, 0, 0, 1] = .ok (.truncated 0 [0, 0, 0, 1], []) := ⟨rfl, rfl, rfl⟩

theorem witness_FirstByteTellsUnit :
    (3 : Byte) ≠ 0x04 ∧ (5 : Byte) ≠ 0x04 ∧ 5 ≤ ([0, 0, 0, 0, 0] : List Byte).length ∧ ([0, 0, 0, 0] : List Byte).length < 5 := by
  decide

/-- Both sides of each bound: 1, 5, 6, MAX_RUN; and the two values that make a run-block of a short run. -/
theorem witness_EmissionDecision :
    (1 ≤ (1 : Word32).toNat ∧ (1 : Word32).toNat < 6) ∧ (1 ≤ (5 : Word32).toNat ∧ (5 : Word32).toNat < 6) ∧
    6 ≤ (6 : Word32).toNat ∧ (0xFFFFFFFF : Word32).toNat ≤ Config.maxRun ∧ (65 : Byte) ≠ 0x04 := by decide

theorem witness_OverflowSplit : Config.maxRun < 4294967296 ∧ Config.maxRun < 8589934590 := by decide

theorem witness_SegmentLength :
    ((65 : Byte) ≠ 0x04 ∧ 5 < 6) ∧ ¬((65 : Byte) ≠ 0x04 ∧ 6 < 6) ∧ ¬((4 : Byte) ≠ 0x04 ∧ 1 < 6) := by decide

/-- One run of one value. -/
theorem runs_replicate (v : Byte) (n : Nat) : runs (List.replicate (n + 1) v) = [(v, n + 1)] := by
  have h : ∀ m j, runsFrom v m (List.replicate j v) = [(v, m + j)] := by
    intro m j
    induction j generalizing m with
    | zero => rfl
    | succ j ih =>
      simp only [List.replicate_succ, runsFrom, if_true, ih]
      congr 2
      omega
  simp only [List.replicate_succ, runs, h]
  congr 2
  omega

/-- A canonical stream with a run-block below MAX_RUN and a unit after it, and one whose last run-block is below 6 after a full
one of the same value (T7). -/
theorem witness_CanonicalStreamConditions :
    (Canonical [4, 0, 0, 0, 6, 65, 66] ∧ parseUnits 0 [4, 0, 0, 0, 6, 65, 66] = some [.run 0 6 65, .lit 0 66]) ∧
    (Canonical [4, 255, 255, 255, 255, 65, 4, 0, 0, 0, 1, 65] ∧
      parseUnits 0 [4, 255, 255, 255, 255, 65, 4, 0, 0, 0, 1, 65] = some [.run 0 0xFFFFFFFF 65, .run 0 1 65]) := by
  refine ⟨⟨⟨[65, 65, 65, 65, 65, 65, 66], by decide⟩, by decide⟩, ⟨⟨List.replicate (4294967295 + 1) 65, ?_⟩, by decide⟩⟩
  rw [refEncode, runs_replicate]
  decide

/-- The side condition of the bound without sentinel bytes. -/
theorem witness_OutputLengthBounds : (0x04 : Byte) ∉ ([65, 65, 65] : List Byte) := by decide

theorem witness_DecodeFailsExactlyAtTruncatedBlock :
    refDecode [65, 4, 0, 0] = .truncated 1 ∧ parseUnits 0 [65] = some [.lit 0 65] := by decide

theorem witness_DecodedOutputOfUnits :
    parseUnits 0 [65, 4, 0, 0, 0, 0, 66] = some [.lit 0 65, .run 0 0 66] := by decide

theorem witness_UnitWritesReadBack : base.eu? 1 = some Eu.reset ∧ base.du? 1 = some Du.reset ∧ (0 : Nat) ≠ 1 := by decide

theorem witness_ResetState : 0 < Config.numInstances := Nat.succ_pos _

/-- From IDLE and from DONE, with lengths at the limit of one bit. -/
theorem witness_EncodeStarts :
    ({ base with offsetWidth := 1 }).eu? 0 = some Eu.reset ∧ Eu.reset.status ≠ .busy ∧
    (baseEu { Eu.reset with status := .done }).eu? 0 = some { Eu.reset with status := .done } ∧
    ([65] : List Byte).length ≤ 2 ^ 1 - 1 ∧ (refEncode [65]).length ≤ 2 ^ 1 - 1 := by decide

/-- From IDLE, DONE and ERROR, with lengths at the limit of one bit. -/
theorem witness_DecodeStarts :
    ({ base with offsetWidth := 1 }).du? 0 = some Du.reset ∧ Du.reset.status ≠ .busy ∧
    (baseDu { Du.reset with status := .done }).du? 0 = some { Du.reset with status := .done } ∧
    (baseDu { Du.reset with status := .error, errCode := .truncated }).du? 0 =
      some { Du.reset with status := .error, errCode := .truncated } ∧
    ([65] : List Byte).length ≤ 2 ^ 1 - 1 ∧ (producedOutput [65]).length ≤ 2 ^ 1 - 1 := by decide

theorem witness_StartCommandRefusals :
    (baseEu (eu [1] 0 false 0 0 false)).eu? 0 = some (eu [1] 0 false 0 0 false) ∧
    (baseEu (eu [1] 0 false 0 0 false)).du? 0 = some Du.reset ∧ (eu [1] 0 false 0 0 false).status = .busy ∧
    (baseDu (du [1] 0 .head 0 0)).du? 0 = some (du [1] 0 .head 0 0) ∧ (du [1] 0 .head 0 0).status = .busy := by decide

theorem witness_ResetResult : base.eu? 0 = some Eu.reset ∧ base.du? 0 = some Du.reset := by decide

theorem witness_RdOpenResult : base.eu? 0 = some Eu.reset ∧ Eu.reset.runOpen = false := by decide

/-- The largest length RD.EXTEND counts on from, and the smallest. -/
theorem witness_RdExtendResult :
    (baseEu (eu [65] 0 true 65 4294967294 false)).eu? 0 = some (eu [65] 0 true 65 4294967294 false) ∧
    (4294967294 : Word32).toNat < Config.maxRun ∧ (eu [65] 0 true 65 4294967294 false).runLen = 4294967294 ∧
    (eu [65] 0 true 65 1 false).runLen.toNat < Config.maxRun := by decide

theorem witness_RdChunkResult :
    (baseEu (eu [65] 0 true 65 4294967295 false)).eu? 0 = some (eu [65] 0 true 65 4294967295 false) ∧
    (eu [65] 0 true 65 4294967295 false).runOpen = true ∧
    (eu [65] 0 true 65 4294967295 false).runLen.toNat = Config.maxRun := by decide

theorem witness_RdBreakResult :
    (baseEu (eu [66] 0 true 65 5 false)).eu? 0 = some (eu [66] 0 true 65 5 false) ∧
    (eu [66] 0 true 65 5 false).runOpen = true ∧ (66 : Byte) ≠ (eu [66] 0 true 65 5 false).runVal := by decide

theorem witness_RdFlushResult :
    ((baseEu (eu [] 0 true 65 5 false)).eu? 0 = some (eu [] 0 true 65 5 false) ∧ (eu [] 0 true 65 5 false).runOpen = true) ∧
    (base.eu? 0 = some Eu.reset ∧ Eu.reset.runOpen = false) := by decide

theorem witness_FmtResult : base.eu? 0 = some Eu.reset := by decide

theorem witness_RunDetectorSelectsOne : base.eu? 0 = some Eu.reset := by decide

/-- RD.OPEN; RD.EXTEND at MAX_RUN - 1; RD.CHUNK at MAX_RUN; RD.BREAK. -/
theorem witness_EuStepResult :
    ∀ e ∈ [eu [65] 0 false 0 0 false, eu [65] 0 true 65 4294967294 false, eu [65] 0 true 65 4294967295 false,
        eu [65] 0 true 66 1 false],
      (baseEu e).eu? 0 = some e ∧ e.status = .busy ∧ e.inOff < e.inLen ∧ inRead e.inBuf e.inOff = some 65 := by decide

theorem witness_EuFinishResult :
    ∀ e ∈ [eu [65] 1 true 65 1 false, eu [] 0 false 0 0 false],
      (baseEu e).eu? 0 = some e ∧ e.status = .busy ∧ e.inOff = e.inLen := by decide

/-- BUSY with input left, BUSY at the end, and not BUSY. -/
theorem witness_EuEnabledStep :
    (∀ e ∈ [eu [65] 0 false 0 0 false, eu [65] 1 true 65 1 false, Eu.reset, { Eu.reset with status := .done }],
      (baseEu e).eu? 0 = some e ∧ e.Inv 33) ∧
    (eu [65] 0 false 0 0 false).inOff < (eu [65] 0 false 0 0 false).inLen ∧
    ¬(eu [65] 1 true 65 1 false).inOff < (eu [65] 1 true 65 1 false).inLen := by decide

theorem witness_DuHeadByteResult :
    ∀ r ∈ [(du [3] 0 .head 0 0, (3 : Byte)), (du [5] 0 .head 0 0, 5), (du [4] 0 .head 0 0, 4)],
      (baseDu r.1).du? 0 = some r.1 ∧ r.1.status = .busy ∧ r.1.inOff < r.1.inLen ∧
      inRead r.1.inBuf r.1.inOff = some r.2 ∧ r.1.phase = .head := by decide

/-- Each length phase, with the accumulator at the largest value its invariant allows. -/
theorem witness_DuLenResult :
    ∀ r ∈ [(du [4, 255] 1 .len0 0 0, 0), (du [4, 255, 255] 2 .len1 0xFF 0, 1), (du [4, 255, 255, 255] 3 .len2 0xFFFF 0, 2),
        (du [4, 255, 255, 255, 255] 4 .len3 0xFFFFFF 0, 3)],
      (baseDu r.1).du? 0 = some r.1 ∧ r.1.status = .busy ∧ r.1.inOff < r.1.inLen ∧
      inRead r.1.inBuf r.1.inOff = some 255 ∧ r.1.lenAcc.toNat < 2 ^ (8 * r.2) := by decide

/-- Length 0 and length MAX_RUN. -/
theorem witness_DuValResult :
    ∀ d ∈ [du [4, 0, 0, 0, 0, 65] 5 .val 0 0, du [4, 255, 255, 255, 255, 65] 5 .val 0xFFFFFFFF 0],
      (baseDu d).du? 0 = some d ∧ d.status = .busy ∧ d.inOff < d.inLen ∧ inRead d.inBuf d.inOff = some 65 ∧ d.phase = .val := by
  decide

/-- At a unit boundary, and in the first and the last phase inside a RUN. -/
theorem witness_DuFinishResult :
    ∀ d ∈ [du [] 0 .head 0 0, du [4] 1 .len0 0 0, du [4, 0, 0, 0, 1] 5 .val 1 0],
      (baseDu d).du? 0 = some d ∧ d.status = .busy ∧ d.inOff = d.inLen := by decide

/-- Each phase with input left, the end at a boundary and inside a RUN, and each status that has no step. -/
theorem witness_DuEnabledStep :
    ∀ d ∈ [du [3] 0 .head 0 0, du [4] 0 .head 0 0, du [4, 0] 1 .len0 0 0, du [4, 0, 0] 2 .len1 0 0, du [4, 0, 0, 0] 3 .len2 0 0,
        du [4, 0, 0, 0, 9] 4 .len3 0 0, du [4, 0, 0, 0, 9, 9] 5 .val 9 0, du [] 0 .head 0 0, du [4] 1 .len0 0 0, Du.reset,
        { Du.reset with status := .done }, { Du.reset with status := .error, errCode := .truncated }],
      (baseDu d).du? 0 = some d ∧ d.Inv 33 := by decide

/-- A literal as the last byte, a run-block as the last six, and truncated prefixes of one and of five bytes. -/
theorem witness_WireUnitResults :
    (∀ d ∈ [du [9] 0 .head 0 0, du [4, 0, 0, 0, 1, 9] 0 .head 0 0, du [4] 0 .head 0 0, du [4, 0, 0, 0, 1] 0 .head 0 0],
      (baseDu d).du? 0 = some d ∧ d.status = .busy ∧ d.phase = .head) ∧
    (9 : Byte) ≠ 0x04 ∧ (du [9] 0 .head 0 0).inOff + 1 ≤ (du [9] 0 .head 0 0).inLen ∧
    (du [4, 0, 0, 0, 1, 9] 0 .head 0 0).inOff + 6 ≤ (du [4, 0, 0, 0, 1, 9] 0 .head 0 0).inLen ∧
    (du [4] 0 .head 0 0).inOff + 1 + 0 = (du [4] 0 .head 0 0).inLen ∧
    (du [4, 0, 0, 0, 1] 0 .head 0 0).inOff + 1 + 4 = (du [4, 0, 0, 0, 1] 0 .head 0 0).inLen := by decide

theorem witness_WireUnitIsItsByteSteps :
    (∀ d ∈ [du [4, 0, 0, 0, 1, 9] 0 .head 0 0, du [5] 0 .head 0 0, du [4] 0 .head 0 0, du [4, 0, 0, 0, 1] 0 .head 0 0],
      (baseDu d).du? 0 = some d ∧ d.status = .busy ∧ d.phase = .head ∧ d.inLen = d.inBuf.length) ∧
    (du [4, 0, 0, 0, 1, 9] 0 .head 0 0).inBuf.drop 0 = 0x04 :: 0 :: 0 :: 0 :: 1 :: 9 :: [] ∧
    (du [5] 0 .head 0 0).inBuf.drop 0 = 5 :: [] ∧ (du [4] 0 .head 0 0).inBuf.drop 0 = 0x04 :: [] ∧
    (du [4, 0, 0, 0, 1] 0 .head 0 0).inBuf.drop 0 = 0x04 :: [0, 0, 0, 1] := by decide

theorem witness_EncodeOperation :
    base.eu? 0 = some Eu.reset ∧ Eu.reset.status ≠ .busy ∧ ([65, 4] : List Byte).length ≤ 2 ^ base.offsetWidth - 1 ∧
    (refEncode [65, 4]).length ≤ 2 ^ base.offsetWidth - 1 := by decide

/-- A stream that decodes, and one that ends inside a run-block. -/
theorem witness_DecodeOperation :
    base.du? 0 = some Du.reset ∧ Du.reset.status ≠ .busy ∧
    ∀ y ∈ [([65, 4, 0, 0, 0, 2, 66] : List Byte), [65, 4, 0]],
      y.length ≤ 2 ^ base.offsetWidth - 1 ∧ (producedOutput y).length ≤ 2 ^ base.offsetWidth - 1 := by decide

theorem witness_CodecRoundTrip :
    base.Quiet { inst := 0, kind := .eu } ∧ base.Quiet { inst := 1, kind := .du } ∧
    ([65, 4] : List Byte).length ≤ 2 ^ base.offsetWidth - 1 ∧ (refEncode [65, 4]).length ≤ 2 ^ base.offsetWidth - 1 :=
  ⟨⟨Eu.reset, rfl, by decide⟩, ⟨Du.reset, rfl, by decide⟩, by decide, by decide⟩

theorem witness_OnlyTheTargetUnitChanges :
    (∃ t, exec (.encode 0 [7]) base = .next t) ∧ (Instr.encode 0 [7]).target = some { inst := 0, kind := .eu } ∧
    ({ inst := 0, kind := .du } : UnitId) ≠ { inst := 0, kind := .eu } := ⟨⟨_, rfl⟩, rfl, by decide⟩

/-- The premises of the statements that look at both units of an instance before and after an instruction: for each way a status, the
error record, a program counter, an input or an output can change. -/
theorem witness_UnitsBeforeAndAfter :
    ∀ r ∈ [(Instr.encode 0 [7], base), (.euFinish 0, baseEu (eu [7] 1 true 7 1 false)), (.reset .powerOn, base),
        (.reset (.one { inst := 0, kind := .du }), baseDu (du [4] 1 .len0 0 0)), (.decode 0 [7], base),
        (.duFinishOk 0, baseDu (du [] 0 .head 0 0)), (.duFinishTrunc 0, baseDu (du [4] 1 .len0 0 0)),
        (.truncated 0 [0], baseDu (du [4, 0] 0 .head 0 0)), (.euStep 0, baseEu (eu [7] 0 false 0 0 false)),
        (.duLit 0, baseDu (du [7] 0 .head 0 0)), (.duSent 0, baseDu (du [4] 0 .head 0 0)),
        (.duLen 0, baseDu (du [4, 9] 1 .len0 0 0)), (.duVal 0, baseDu (du [4, 0, 0, 0, 2, 9] 5 .val 2 0)),
        (.lit 0 7, baseDu (du [7] 0 .head 0 0)), (.run 0 2 9, baseDu (du [4, 0, 0, 0, 2, 9] 0 .head 0 0))],
      completes (exec r.1 r.2) = true ∧ (r.2.eu? 0).isSome = true ∧ (r.2.du? 0).isSome = true ∧
      (euOf (exec r.1 r.2)).isSome = true ∧ (duOf (exec r.1 r.2)).isSome = true := by decide

theorem witness_OnlyTruncationRaises :
    (euOf (exec (.euStep 0) (baseEu (eu [7] 0 false 0 0 false)))).map Eu.status = some .busy ∧
    (duOf (exec (.duFinishTrunc 0) (baseDu (du [4] 1 .len0 0 0)))).map Du.status = some .error ∧
    (du [4] 1 .len0 0 0).status ≠ .error := by decide

theorem witness_StepRunsTheNextMove :
    ({ base with agenda := [.host (.encode 0 [7])] }).agenda = .host (.encode 0 [7]) :: [] ∧
    enabledStep { inst := 0, kind := .eu } { baseEu (eu [7] 0 false 0 0 false) with agenda := [.turn { inst := 0, kind := .eu }] } =
      some (.euStep 0) ∧
    enabledStep { inst := 0, kind := .du } { base with agenda := [.turn { inst := 0, kind := .du }] } = none := by decide

theorem witness_StepRunsTheDecodedUnit :
    (baseDu (du [5] 0 .head 0 0)).du? 0 = some (du [5] 0 .head 0 0) ∧ (du [5] 0 .head 0 0).status = .busy ∧
    (du [5] 0 .head 0 0).inOff < (du [5] 0 .head 0 0).inLen ∧
    decode 0 (((du [5] 0 .head 0 0).inBuf.take 1).drop 0) = .ok (.lit 0 5, []) ∧
    base.insts ≠ [] ∧ decodeTableWord 8 0x05 = some (.lit 0 5) :=
  ⟨by decide, by decide, by decide, rfl, by decide, by decide⟩

theorem witness_StepWithoutMoves :
    (base.agenda = [] ∧ base.NoneBusy) ∧
    ((baseEu (eu [7] 0 false 0 0 false)).agenda = [] ∧ ¬(baseEu (eu [7] 0 false 0 0 false)).NoneBusy) := by decide

/-- The block's invariants from its units'. -/
theorem inv_of_units (s : State) (h : s.insts ≠ []) (he : ∀ n ∈ s.insts, n.eu.Inv s.offsetWidth)
    (hd : ∀ n ∈ s.insts, n.du.Inv s.offsetWidth) : s.Inv := ⟨h, fun n hn => ⟨he n hn, hd n hn⟩⟩

theorem witness_StepKeepsInvariants :
    (baseDu (du [4, 9] 1 .len0 0 0)).Inv ∧ completes (step (baseDu (du [4, 9] 1 .len0 0 0))) = true :=
  ⟨inv_of_units _ (by decide) (by decide) (by decide), by decide⟩

/-- A state with the invariants, and one with the invariants whose step is refused. -/
theorem witness_OnlyHostCommandsAreRefused :
    base.Inv ∧ ({ baseEu (eu [7] 0 false 0 0 false) with agenda := [.host (.encode 0 [])] } : State).Inv ∧
    refusalOf (step { baseEu (eu [7] 0 false 0 0 false) with agenda := [.host (.encode 0 [])] }) = some .startWhileBusy :=
  ⟨inv_of_units _ (by decide) (by decide) (by decide), inv_of_units _ (by decide) (by decide) (by decide), by decide⟩

/-- Two steps left, none done and both done. -/
theorem witness_BusyUnitsMakeProgress :
    (baseEu (eu [7] 0 false 0 0 false)).Inv ∧ (baseEu (eu [7] 0 false 0 0 false)).agenda = [] ∧
    (baseEu (eu [7] 0 false 0 0 false)).workLeft = 2 :=
  ⟨inv_of_units _ (by decide) (by decide) (by decide), by decide, by decide⟩

theorem witness_ResultsStayUntilTheNextCommand :
    (baseEu (eu [7] 0 false 0 0 false)).Quiet { inst := 0, kind := .du } ∧
    (baseEu (eu [7] 0 false 0 0 false)).NoCommandFor { inst := 0, kind := .du } ∧
    ∃ t, step (baseEu (eu [7] 0 false 0 0 false)) = .next t :=
  ⟨⟨Du.reset, rfl, by decide⟩, by rintro c rest ⟨⟩, ⟨_, rfl⟩⟩

theorem witness_UnitsAreIndependent :
    ({ inst := 0, kind := .eu } : UnitId) ≠ { inst := 1, kind := .du } ∧
    ∃ s₁ t, perform (.turn { inst := 0, kind := .eu })
        ((baseEu (eu [7] 0 false 0 0 false)).setDu 1 (du [4] 0 .head 0 0)) = .next s₁ ∧
      perform (.turn { inst := 1, kind := .du }) s₁ = .next t := ⟨by decide, _, _, rfl, rfl⟩

theorem witness_HostOutputs :
    (Status.idle, (0 : BitVec 2)) ∈ [(Status.idle, (0 : BitVec 2)), (.busy, 1), (.done, 2), (.error, 3)] ∧
    Du.reset.errCode = .none ∧ { Du.reset with errCode := .truncated }.errCode = .truncated ∧
    { Du.reset with status := .done }.status = .done ∧ { Du.reset with status := .error }.status = .error ∧
    Du.reset.status ≠ .done ∧ Du.reset.status ≠ .error ∧ { Eu.reset with status := .done }.status = .done := by decide

end Sys2Proof.Tests
end

section
/-! Invariants, frames and writers of the state (10_state.md). The layer first: what a step can run, who writes a unit, the
invariants said once per kind of unit. Then the statements. -/

namespace Sys2Proof

/-- The run detector's operations and the formatter as rows of their own. No move of the environment runs one: the hardware invokes
them inside EU.STEP and EU.FINISH (log 7). -/
def Instr.isDetectorOp : Instr → Bool
  | .rdOpen _ _ | .rdExtend _ _ | .rdChunk _ _ | .rdBreak _ _ | .rdFlush _ | .fmt _ _ _ => true
  | _ => false

theorem decode_not_isDetectorOp {k : Nat} {y rest : List Byte} {i : Instr} (h : decode k y = .ok (i, rest)) :
    i.isDetectorOp = false := by
  unfold decode at h
  split at h
  · cases h
  · split_ifs at h
    · split at h <;> cases h <;> rfl
    · cases h; rfl

namespace Machine

/-! ## What a step can run -/

theorem HostCommand.toInstr_not_isDetectorOp (c : HostCommand) : c.toInstr.isDetectorOp = false := by
  cases c <;> rfl

theorem Eu.enabled_not_isDetectorOp {k : Nat} {e : Eu} {i : Instr} (h : e.enabled k = some i) :
    i.isDetectorOp = false := by
  unfold Eu.enabled at h
  split_ifs at h <;> cases h <;> rfl

theorem Du.byteInstr_not_isDetectorOp (k : Nat) (d : Du) : (d.byteInstr k).isDetectorOp = false := by
  unfold Du.byteInstr
  split
  case h_1 => split_ifs <;> rfl
  all_goals rfl

theorem Du.enabled_not_isDetectorOp {k : Nat} {d : Du} {i : Instr} (h : d.enabled k = some i) :
    i.isDetectorOp = false := by
  unfold Du.enabled at h
  split_ifs at h <;> cases h
  · exact Du.byteInstr_not_isDetectorOp k d
  · rfl
  · rfl

theorem enabledStep_not_isDetectorOp {u : UnitId} {s : State} {i : Instr} (h : enabledStep u s = some i) :
    i.isDetectorOp = false := by
  unfold enabledStep at h
  split at h
  · obtain ⟨e, -, he⟩ := Option.bind_eq_some_iff.mp h
    exact Eu.enabled_not_isDetectorOp he
  · obtain ⟨d, -, hd⟩ := Option.bind_eq_some_iff.mp h
    exact Du.enabled_not_isDetectorOp hd

theorem Du.wireInstr_not_isDetectorOp {k : Nat} {d : Du} {i : Instr} (h : d.wireInstr k = some i) :
    i.isDetectorOp = false := by
  unfold Du.wireInstr at h
  split_ifs at h
  · split at h
    · rename_i hdec
      cases h
      exact decode_not_isDetectorOp hdec
    · exact Du.enabled_not_isDetectorOp h
  · exact Du.enabled_not_isDetectorOp h

/-- Everything a turn can do: nothing, or the instruction that is selected. -/
theorem runEnabled_eq_next {o : Option Instr} {s t : State} (h : runEnabled o s = .next t) :
    t = s ∨ ∃ i, o = some i ∧ exec i s = .next t := by
  cases o with
  | none => cases h; exact .inl rfl
  | some i => exact .inr ⟨i, rfl, h⟩

/-- Everything a move can do: nothing, or one instruction that is no operation of the run detector by itself. -/
theorem perform_next_cases {m : Move} {s t : State} (h : perform m s = .next t) :
    t = s ∨ ∃ i, i.isDetectorOp = false ∧ exec i s = .next t := by
  cases m with
  | host c => exact .inr ⟨c.toInstr, c.toInstr_not_isDetectorOp, h⟩
  | turn u =>
    obtain ht | ⟨i, hi, ht⟩ := runEnabled_eq_next h
    · exact .inl ht
    · exact .inr ⟨i, enabledStep_not_isDetectorOp hi, ht⟩
  | wireTurn k =>
    obtain ht | ⟨i, hi, ht⟩ := runEnabled_eq_next h
    · exact .inl ht
    · obtain ⟨d, -, hd⟩ := Option.bind_eq_some_iff.mp hi
      exact .inr ⟨i, Du.wireInstr_not_isDetectorOp hd, ht⟩

/-- Everything a step can do: nothing, or one move, from the state as it is or with that move taken off the agenda. -/
theorem step_next_cases {s t : State} (h : step s = .next t) :
    t = s ∨ ∃ m s₀, (s₀ = s ∨ s₀ = s.popMove) ∧ perform m s₀ = .next t := by
  unfold step at h
  split at h
  · exact .inr ⟨_, _, .inr rfl, h⟩
  · unfold performIdle at h
    split at h
    · exact .inr ⟨_, _, .inl rfl, h⟩
    · cases h; exact .inl rfl

/-! ## Who writes a unit -/

theorem EuEffect.target {w k : Nat} {e e' : Eu} {i : Instr} (h : EuEffect w k e i e') :
    i.target = some { inst := k, kind := .eu } := by
  cases h <;> rfl

theorem DuEffect.target {w k : Nat} {d d' : Du} {i : Instr} (h : DuEffect w k d i d') :
    i.target = some { inst := k, kind := .du } := by
  cases h <;> rfl

/-- A write of an Encoder Unit leaves every other unit (R13). -/
theorem State.sameUnit_setEu {v : UnitId} {k : Nat} (h : v ≠ { inst := k, kind := .eu }) (e : Eu) (s : State) :
    s.SameUnit v (s.setEu k e) := by
  obtain ⟨j, kind⟩ := v
  cases kind with
  | eu => exact State.setEu_eu_other (fun hj => h (congrArg (UnitId.mk · .eu) hj)) e s
  | du => exact State.setEu_du j k e s

/-- A write of a Decoder Unit leaves every other unit (R13). -/
theorem State.sameUnit_setDu {v : UnitId} {k : Nat} (h : v ≠ { inst := k, kind := .du }) (d : Du) (s : State) :
    s.SameUnit v (s.setDu k d) := by
  obtain ⟨j, kind⟩ := v
  cases kind with
  | eu => exact State.setDu_eu j k d s
  | du => exact State.setDu_du_other (fun hj => h (congrArg (UnitId.mk · .du) hj)) d s

/-- Everything an instruction can do to the `k`-th Encoder Unit. -/
theorem exec_eu_cases {i : Instr} {s t : State} {k : Nat} {e e' : Eu} (h : exec i s = .next t)
    (he : s.eu? k = some e) (he' : t.eu? k = some e') :
    e' = e ∨ EuEffect s.offsetWidth k e i e' ∨ (i = .reset .powerOn ∧ e' = Eu.reset) := by
  obtain ⟨j, f, f', hf, rfl, heff⟩ | ⟨j, d, d', -, rfl, -⟩ | ⟨hi, rfl⟩ := exec_next_cases h
  · by_cases hkj : k = j
    · subst hkj
      cases he.symm.trans hf
      cases he'.symm.trans (State.setEu_eu_same hf f')
      exact .inr (.inl heff)
    · rw [State.setEu_eu_other hkj] at he'
      exact .inl (Option.some.inj (he'.symm.trans he))
  · rw [State.setDu_eu] at he'
    exact .inl (Option.some.inj (he'.symm.trans he))
  · exact .inr (.inr ⟨hi, Option.some.inj (he'.symm.trans (State.powerOn_eu he))⟩)

/-- Everything an instruction can do to the `k`-th Decoder Unit. -/
theorem exec_du_cases {i : Instr} {s t : State} {k : Nat} {d d' : Du} (h : exec i s = .next t)
    (hd : s.du? k = some d) (hd' : t.du? k = some d') :
    d' = d ∨ DuEffect s.offsetWidth k d i d' ∨ (i = .reset .powerOn ∧ d' = Du.reset) := by
  obtain ⟨j, e, e', -, rfl, -⟩ | ⟨j, f, f', hf, rfl, heff⟩ | ⟨hi, rfl⟩ := exec_next_cases h
  · rw [State.setEu_du] at hd'
    exact .inl (Option.some.inj (hd'.symm.trans hd))
  · by_cases hkj : k = j
    · subst hkj
      cases hd.symm.trans hf
      cases hd'.symm.trans (State.setDu_du_same hf f')
      exact .inr (.inl heff)
    · rw [State.setDu_du_other hkj] at hd'
      exact .inl (Option.some.inj (hd'.symm.trans hd))
  · exact .inr (.inr ⟨hi, Option.some.inj (hd'.symm.trans (State.powerOn_du hd))⟩)

/-- Who writes an Encoder Unit's status, and what (R19). -/
theorem EuEffect.status_cases {w k : Nat} {e e' : Eu} {i : Instr} (h : EuEffect w k e i e') :
    e'.status = e.status ∨ (e'.status = .busy ∧ ∃ x, i = .encode k x) ∨ (e'.status = .done ∧ i = .euFinish k) ∨
      (e'.status = .idle ∧ i.resets { inst := k, kind := .eu }) := by
  cases h with
  | encode => exact .inr (.inl ⟨rfl, _, rfl⟩)
  | reset => exact .inr (.inr (.inr ⟨rfl, .inl rfl⟩))
  | byteStep => exact .inl (Eu.rdByte_status _ e)
  | finish => exact .inr (.inr (.inl ⟨rfl, rfl⟩))
  | rdOpen | rdExtend | rdChunk | rdBreak | rdFlush | fmt => exact .inl rfl

/-- Who writes a Decoder Unit's status, and what (R19). -/
theorem DuEffect.status_cases {w k : Nat} {d d' : Du} {i : Instr} (h : DuEffect w k d i d') :
    d'.status = d.status ∨ (d'.status = .busy ∧ ∃ y, i = .decode k y) ∨ (d'.status = .done ∧ i = .duFinishOk k) ∨
      (d'.status = .error ∧ (i = .duFinishTrunc k ∨ ∃ tail, i = .truncated k tail)) ∨
      (d'.status = .idle ∧ i.resets { inst := k, kind := .du }) := by
  cases h with
  | decode => exact .inr (.inl ⟨rfl, _, rfl⟩)
  | finishOk => exact .inr (.inr (.inl ⟨rfl, rfl⟩))
  | finishTrunc => exact .inr (.inr (.inr (.inl ⟨rfl, .inl rfl⟩)))
  | wireTruncated => exact .inr (.inr (.inr (.inl ⟨rfl, .inr ⟨_, rfl⟩⟩)))
  | reset => exact .inr (.inr (.inr (.inr ⟨rfl, .inl rfl⟩)))
  | lit | sent | len | val | wireRun | wireLit => exact .inl rfl

/-- Who writes the error record, and what (R19). -/
theorem DuEffect.errorRecord_cases {w k : Nat} {d d' : Du} {i : Instr} (h : DuEffect w k d i d') :
    (d'.errCode = d.errCode ∧ d'.errOffset = d.errOffset) ∨
      (d'.errCode = .none ∧ d'.errOffset = 0 ∧ ((∃ y, i = .decode k y) ∨ i.resets { inst := k, kind := .du })) ∨
      (d'.errCode = .truncated ∧ (i = .duFinishTrunc k ∨ ∃ tail, i = .truncated k tail)) := by
  cases h with
  | decode => exact .inr (.inl ⟨rfl, rfl, .inl ⟨_, rfl⟩⟩)
  | reset => exact .inr (.inl ⟨rfl, rfl, .inr (.inl rfl)⟩)
  | finishTrunc => exact .inr (.inr ⟨rfl, .inl rfl⟩)
  | wireTruncated => exact .inr (.inr ⟨rfl, .inr ⟨_, rfl⟩⟩)
  | lit | sent | len | val | finishOk | wireRun | wireLit => exact .inl ⟨rfl, rfl⟩

/-- Who writes an Encoder Unit's program counter, and what (R17). -/
theorem EuEffect.inOff_cases {w k : Nat} {e e' : Eu} {i : Instr} (h : EuEffect w k e i e') :
    e'.inOff = e.inOff ∨ (e'.inOff = e.inOff + 1 ∧ i = .euStep k) ∨
      (e'.inOff = 0 ∧ ((∃ x, i = .encode k x) ∨ i.resets { inst := k, kind := .eu })) := by
  cases h with
  | byteStep => exact .inr (.inl ⟨congrArg (· + 1) (Eu.rdByte_inOff _ e), rfl⟩)
  | encode => exact .inr (.inr ⟨rfl, .inl ⟨_, rfl⟩⟩)
  | reset => exact .inr (.inr ⟨rfl, .inr (.inl rfl)⟩)
  | finish | rdOpen | rdExtend | rdChunk | rdBreak | rdFlush | fmt => exact .inl rfl

/-- Who writes a Decoder Unit's program counter, and what (R17, R80). -/
theorem DuEffect.inOff_cases {w k : Nat} {d d' : Du} {i : Instr} (h : DuEffect w k d i d') :
    d'.inOff = d.inOff ∨
      (d'.inOff = d.inOff + 1 ∧ (i = .duLit k ∨ i = .duSent k ∨ i = .duLen k ∨ i = .duVal k ∨ ∃ v, i = .lit k v)) ∨
      (d'.inOff = d.inOff + 6 ∧ ∃ n v, i = .run k n v) ∨
      (d'.inOff = d'.inLen ∧ ∃ tail, i = .truncated k tail ∧ d'.inOff = d.inOff + 1 + tail.length) ∨
      (d'.inOff = 0 ∧ ((∃ y, i = .decode k y) ∨ i.resets { inst := k, kind := .du })) := by
  cases h with
  | finishOk | finishTrunc => exact .inl rfl
  | lit => exact .inr (.inl ⟨rfl, .inl rfl⟩)
  | sent => exact .inr (.inl ⟨rfl, .inr (.inl rfl)⟩)
  | len => exact .inr (.inl ⟨rfl, .inr (.inr (.inl rfl))⟩)
  | val => exact .inr (.inl ⟨rfl, .inr (.inr (.inr (.inl rfl)))⟩)
  | wireLit => exact .inr (.inl ⟨rfl, .inr (.inr (.inr (.inr ⟨_, rfl⟩)))⟩)
  | wireRun => exact .inr (.inr (.inl ⟨rfl, _, _, rfl⟩))
  | @wireTruncated tail _ _ _ hi =>
    have hoff : d.inOff + (1 + tail.length) = d.inOff + 1 + tail.length := by omega
    exact .inr (.inr (.inr (.inl ⟨hoff.trans hi, tail, rfl, hoff⟩)))
  | decode => exact .inr (.inr (.inr (.inr ⟨rfl, .inl ⟨_, rfl⟩⟩)))
  | reset => exact .inr (.inr (.inr (.inr ⟨rfl, .inr (.inl rfl)⟩)))

/-! ## The invariants of an Encoder Unit (R17, R23) -/

/-- After an input byte a run is open (R57 to R60). -/
theorem Eu.rdByte_runOpen (b : Byte) (e : Eu) : (e.rdByte b).1.runOpen = true := by
  unfold Eu.rdByte
  split_ifs with ho
  · rfl
  · exact Bool.eq_true_of_not_eq_false ho
  · exact Bool.eq_true_of_not_eq_false ho
  · exact Bool.eq_true_of_not_eq_false ho

/-- The open run counts at least the byte that was read: RD.EXTEND does not overflow (R58). -/
theorem Eu.one_le_rdByte_runLen (b : Byte) (e : Eu) : 1 ≤ (e.rdByte b).1.runLen.toNat := by
  unfold Eu.rdByte
  split_ifs with _ _ hl
  · exact le_rfl
  · have hlt := lt_maxRunWord.mp hl
    have hadd : (e.runLen + 1).toNat = e.runLen.toNat + 1 := BitVec.toNat_add_of_lt (Nat.succ_lt_succ hlt)
    exact hadd ▸ Nat.le_add_left 1 _
  · exact le_rfl
  · exact le_rfl

/-- The invariants while no run is open. -/
theorem Eu.Inv.of_closed {w : Nat} {e : Eu} (hin : InputInv w e.inBuf e.inLen e.inOff)
    (hv : e.runVal = 0 ∧ e.runLen = 0 ∧ e.split = false) (ho : e.runOpen = false)
    (hb : e.status = .busy → e.inOff = 0) (hs : e.status ≠ .error) : e.Inv w :=
  ⟨hin, fun _ => hv, by simp [ho], fun _ => hb, fun _ => ho, hs⟩

/-- The invariants while a run is open. -/
theorem Eu.Inv.of_open {w : Nat} {e : Eu} (hin : InputInv w e.inBuf e.inLen e.inOff) (ho : e.runOpen = true)
    (hs : e.status = .busy) (hl : 1 ≤ e.runLen.toNat) (hi : 1 ≤ e.inOff) : e.Inv w :=
  ⟨hin, by simp [ho], fun _ => ⟨hs, hl, le_maxRun _, hi⟩, by simp [ho], by simp [hs], by simp [hs]⟩

theorem Eu.reset_inv (w : Nat) : Eu.reset.Inv w :=
  .of_closed ⟨rfl, le_rfl, Nat.zero_le _⟩ ⟨rfl, rfl, rfl⟩ rfl (fun _ => rfl) nofun

theorem Eu.start_inv {w : Nat} {x : List Byte} (hx : x.length ≤ maxLength w) : (Eu.start x).Inv w :=
  .of_closed ⟨rfl, Nat.zero_le _, hx⟩ ⟨rfl, rfl, rfl⟩ rfl (fun _ => rfl) nofun

/-- Every effect but that of a detector operation by itself keeps an Encoder Unit's invariants. -/
theorem EuEffect.keeps_inv {w k : Nat} {e e' : Eu} {i : Instr} (h : EuEffect w k e i e')
    (hi : i.isDetectorOp = false) (he : e.Inv w) : e'.Inv w := by
  obtain ⟨⟨hlen, hoff, hmax⟩, -⟩ := he
  cases h with
  | encode _ hx _ => exact Eu.start_inv hx
  | reset => exact Eu.reset_inv w
  | @byteStep b hs hlt _ =>
    refine .of_open ?_ (Eu.rdByte_runOpen b e) ((Eu.rdByte_status b e).trans hs) (Eu.one_le_rdByte_runLen b e)
      (Nat.le_add_left 1 _)
    simp only [Eu.advance, Eu.outAppend, Eu.rdByte_inBuf, Eu.rdByte_inLen, Eu.rdByte_inOff]
    exact ⟨hlen, hlt, hmax⟩
  | finish => exact .of_closed ⟨hlen, hoff, hmax⟩ ⟨rfl, rfl, rfl⟩ rfl nofun nofun
  | rdOpen | rdExtend | rdChunk | rdBreak | rdFlush | fmt => cases hi

/-! ## The invariants of a Decoder Unit (R17, R25) -/

/-- How many bytes of the run-block a phase has behind it, the sentinel among them (R24). -/
def Phase.blockPos : Phase → Nat
  | .head => 0
  | .len0 => 1
  | .len1 => 2
  | .len2 => 3
  | .len3 => 4
  | .val => 5

/-- R25 (b) to (d) for every phase inside a run-block at once. -/
structure Du.InBlock (d : Du) : Prop where
  busy : d.status = .busy
  inOff : d.inOff = d.blkOff + d.phase.blockPos
  lenAcc : d.lenAcc.toNat < 2 ^ (8 * (d.phase.blockPos - 1))
  sentinel : inRead d.inBuf d.blkOff = some Config.sentinel

/-- The invariants of a Decoder Unit by where its parser stands: at a unit boundary or inside a run-block. -/
theorem Du.inv_iff {w : Nat} {d : Du} :
    d.Inv w ↔ InputInv w d.inBuf d.inLen d.inOff ∧ (d.phase = .head → d.lenAcc = 0) ∧ (d.phase ≠ .head → d.InBlock) ∧
      (d.errCode = .truncated ↔ d.status = .error) := by
  constructor
  · rintro ⟨hin, hhead, h0, h1, h2, h3, hval, hsent, -, herr⟩
    refine ⟨hin, hhead, fun hp => ?_, herr⟩
    have lenPhase {j : Nat} (hj : d.LenInv j) (hpos : d.phase.blockPos = 1 + j) : d.InBlock := by
      obtain ⟨hacc, hbusy, hoff⟩ := hj
      exact ⟨hbusy, by omega, by rwa [hpos, Nat.add_sub_cancel_left], hsent hp⟩
    cases hph : d.phase with
    | head => exact absurd hph hp
    | len0 => exact lenPhase (h0 hph) (by rw [hph]; rfl)
    | len1 => exact lenPhase (h1 hph) (by rw [hph]; rfl)
    | len2 => exact lenPhase (h2 hph) (by rw [hph]; rfl)
    | len3 => exact lenPhase (h3 hph) (by rw [hph]; rfl)
    | val =>
      obtain ⟨hoff, hbusy⟩ := hval hph
      exact ⟨hbusy, by rw [hph]; exact hoff, by rw [hph]; exact d.lenAcc.isLt, hsent hp⟩
  · rintro ⟨hin, hhead, hblk, herr⟩
    have lenPhase {p : Phase} {j : Nat} (hp : p ≠ .head) (hpos : p.blockPos = 1 + j) (h : d.phase = p) : d.LenInv j := by
      subst h
      obtain ⟨hbusy, hoff, hacc, -⟩ := hblk hp
      rw [hpos, Nat.add_sub_cancel_left] at hacc
      exact ⟨hacc, hbusy, by omega⟩
    refine ⟨hin, hhead, lenPhase nofun rfl, lenPhase nofun rfl, lenPhase nofun rfl, lenPhase nofun rfl, fun hval => ?_,
      fun hp => (hblk hp).sentinel, fun hbusy => ?_, herr⟩
    · obtain ⟨hbusy, hoff, -, -⟩ := hblk (by simp [hval])
      exact ⟨by rw [hoff, hval]; rfl, hbusy⟩
    · have hp : d.phase = .head := by_contra fun hp => hbusy (hblk hp).busy
      exact ⟨hp, hhead hp⟩

theorem Du.Inv.of_head {w : Nat} {d : Du} (hin : InputInv w d.inBuf d.inLen d.inOff) (hp : d.phase = .head)
    (ha : d.lenAcc = 0) (herr : d.errCode = .truncated ↔ d.status = .error) : d.Inv w :=
  Du.inv_iff.mpr ⟨hin, fun _ => ha, fun h => absurd hp h, herr⟩

theorem Du.reset_inv (w : Nat) : Du.reset.Inv w :=
  .of_head ⟨rfl, le_rfl, Nat.zero_le _⟩ rfl rfl ⟨nofun, nofun⟩

theorem Du.start_inv {w : Nat} {y : List Byte} (hy : y.length ≤ maxLength w) : (Du.start y).Inv w :=
  .of_head ⟨rfl, Nat.zero_le _, hy⟩ rfl rfl ⟨nofun, nofun⟩

theorem Phase.afterLen_ne_head {p : Phase} (h : p ≠ .head) : p.afterLen ≠ .head := by
  cases p with
  | head => exact absurd rfl h
  | len0 | len1 | len2 | len3 | val => exact nofun

theorem Phase.blockPos_afterLen {p : Phase} (h : p ≠ .head) (hv : p ≠ .val) :
    p.afterLen.blockPos = p.blockPos + 1 := by
  cases p with
  | head => exact absurd rfl h
  | val => exact absurd rfl hv
  | len0 | len1 | len2 | len3 => rfl

theorem Phase.one_le_blockPos {p : Phase} (h : p ≠ .head) : 1 ≤ p.blockPos := by
  cases p with
  | head => exact absurd rfl h
  | len0 | len1 | len2 | len3 | val => decide

/-- One more length byte keeps the accumulator within its bytes (R25 b, R78). -/
theorem lenAcc_append_lt {a : Word32} {b : Byte} {j : Nat} (h : a.toNat < 2 ^ (8 * j)) :
    (a * 256 + b.setWidth 32).toNat < 2 ^ (8 * (j + 1)) := by
  have hb := b.isLt
  have hle : (a * 256 + b.setWidth 32).toNat ≤ a.toNat * 256 + b.toNat := by
    have h256 : (256 : Word32).toNat = 256 := rfl
    simp only [BitVec.toNat_add, BitVec.toNat_mul, BitVec.toNat_setWidth, h256]
    omega
  have hpow : 2 ^ (8 * (j + 1)) = 2 ^ (8 * j) * 256 := by rw [Nat.mul_succ, Nat.pow_add]
  omega

/-- A length byte leads from one position of a run-block to the next (R78). -/
theorem Du.InBlock.append_len {d : Du} (h : d.InBlock) (hp : d.phase ≠ .head) (hv : d.phase ≠ .val) (b : Byte) :
    Du.InBlock ({ d with lenAcc := d.lenAcc * 256 + b.setWidth 32, phase := d.phase.afterLen }.advance 1) := by
  obtain ⟨hbusy, hoff, hacc, hsent⟩ := h
  have hpos := Phase.blockPos_afterLen hp hv
  have hone := Phase.one_le_blockPos hp
  refine ⟨hbusy, ?_, ?_, hsent⟩
  · show d.inOff + 1 = d.blkOff + d.phase.afterLen.blockPos
    omega
  · show _ < 2 ^ (8 * (d.phase.afterLen.blockPos - 1))
    have hidx : d.phase.afterLen.blockPos - 1 = d.phase.blockPos - 1 + 1 := by omega
    rw [hidx]
    exact lenAcc_append_lt hacc

/-- Every effect keeps a Decoder Unit's invariants. -/
theorem DuEffect.keeps_inv {w k : Nat} {d d' : Du} {i : Instr} (h : DuEffect w k d i d') (hd : d.Inv w) : d'.Inv w := by
  obtain ⟨⟨hlen, hoff, hmax⟩, hhead, hblk, herr⟩ := Du.inv_iff.mp hd
  have noError (hs : d.status = .busy) : d.errCode ≠ .truncated := by simp [herr, hs]
  cases h with
  | decode _ hy _ => exact Du.start_inv hy
  | reset => exact Du.reset_inv w
  | lit _ hlt _ hp _ => exact .of_head ⟨hlen, hlt, hmax⟩ hp (hhead hp) herr
  | sent hs hlt hb hp =>
    exact Du.inv_iff.mpr ⟨⟨hlen, hlt, hmax⟩, nofun, fun _ => ⟨hs, rfl, Nat.one_pos, hb⟩, herr⟩
  | @len b _ hlt _ hp hv =>
    exact Du.inv_iff.mpr ⟨⟨hlen, hlt, hmax⟩, fun h => absurd h (Phase.afterLen_ne_head hp),
      fun _ => (hblk hp).append_len hp hv b, herr⟩
  | val _ hlt _ _ => exact .of_head ⟨hlen, hlt, hmax⟩ rfl rfl herr
  | finishOk hs _ hp => exact .of_head ⟨hlen, hoff, hmax⟩ hp (hhead hp) ⟨fun h => absurd h (noError hs), nofun⟩
  | finishTrunc => exact .of_head ⟨hlen, hoff, hmax⟩ rfl rfl ⟨fun _ => rfl, fun _ => rfl⟩
  | wireRun _ _ hi => exact .of_head ⟨hlen, hi, hmax⟩ rfl rfl herr
  | wireTruncated _ _ _ hi =>
    refine .of_head ⟨hlen, ?_, hmax⟩ rfl rfl ⟨fun _ => rfl, fun _ => rfl⟩
    exact ((Nat.add_assoc _ _ _).symm.trans hi).le
  | wireLit _ _ hp hi => exact .of_head ⟨hlen, hi, hmax⟩ hp (hhead hp) herr

/-! ## The invariants of the block -/

/-- The block's invariants, unit by unit. -/
theorem State.inv_iff_units {s : State} :
    s.Inv ↔ 0 < s.insts.length ∧ (∀ k e, s.eu? k = some e → e.Inv s.offsetWidth) ∧
      ∀ k d, s.du? k = some d → d.Inv s.offsetWidth := by
  constructor
  · rintro ⟨hne, hall⟩
    refine ⟨List.length_pos_iff.mpr hne, fun k e he => ?_, fun k d hd => ?_⟩
    · obtain ⟨n, hn, rfl⟩ := State.eu?_eq_some.mp he
      exact (hall n (List.mem_of_getElem? hn)).1
    · obtain ⟨n, hn, rfl⟩ := State.du?_eq_some.mp hd
      exact (hall n (List.mem_of_getElem? hn)).2
  · rintro ⟨hpos, he, hd⟩
    refine ⟨List.length_pos_iff.mp hpos, fun n hn => ?_⟩
    obtain ⟨k, hk⟩ := List.mem_iff_getElem?.mp hn
    exact ⟨he k _ (State.eu?_eq_some.mpr ⟨n, hk, rfl⟩), hd k _ (State.du?_eq_some.mpr ⟨n, hk, rfl⟩)⟩

theorem State.setEu_inv {s : State} {k : Nat} {e₀ e : Eu} (hs : s.Inv) (h₀ : s.eu? k = some e₀)
    (he : e.Inv s.offsetWidth) : (s.setEu k e).Inv := by
  obtain ⟨hpos, heu, hdu⟩ := State.inv_iff_units.mp hs
  refine State.inv_iff_units.mpr ⟨by rwa [State.setEu_length], fun j f hf => ?_, fun j d hd => ?_⟩
  · by_cases hjk : j = k
    · subst hjk
      cases hf.symm.trans (State.setEu_eu_same h₀ e)
      exact he
    · exact heu j f (State.setEu_eu_other hjk e s ▸ hf)
  · exact hdu j d (State.setEu_du j k e s ▸ hd)

theorem State.setDu_inv {s : State} {k : Nat} {d₀ d : Du} (hs : s.Inv) (h₀ : s.du? k = some d₀)
    (hd : d.Inv s.offsetWidth) : (s.setDu k d).Inv := by
  obtain ⟨hpos, heu, hdu⟩ := State.inv_iff_units.mp hs
  refine State.inv_iff_units.mpr ⟨by rwa [State.setDu_length], fun j e he => ?_, fun j f hf => ?_⟩
  · exact heu j e (State.setDu_eu j k d s ▸ he)
  · by_cases hjk : j = k
    · subst hjk
      cases hf.symm.trans (State.setDu_du_same h₀ d)
      exact hd
    · exact hdu j f (State.setDu_du_other hjk d s ▸ hf)

theorem State.powerOn_inv {s : State} (hs : s.Inv) : s.powerOn.Inv := by
  refine ⟨fun h => hs.1 (List.map_eq_nil_iff.mp h), fun n hn => ?_⟩
  obtain ⟨-, -, rfl⟩ := List.mem_map.mp hn
  exact ⟨Eu.reset_inv _, Du.reset_inv _⟩

/-- Every instruction but a detector operation by itself keeps the block's invariants. -/
theorem exec_keeps_inv {i : Instr} {s t : State} (hi : i.isDetectorOp = false) (hs : s.Inv) (h : exec i s = .next t) :
    t.Inv := by
  obtain ⟨-, heu, hdu⟩ := State.inv_iff_units.mp hs
  obtain ⟨k, e, e', he, rfl, heff⟩ | ⟨k, d, d', hd, rfl, heff⟩ | ⟨-, rfl⟩ := exec_next_cases h
  · exact State.setEu_inv hs he (heff.keeps_inv hi (heu k e he))
  · exact State.setDu_inv hs hd (heff.keeps_inv (hdu k d hd))
  · exact State.powerOn_inv hs

theorem perform_keeps_inv {m : Move} {s t : State} (hs : s.Inv) (h : perform m s = .next t) : t.Inv := by
  obtain rfl | ⟨i, hi, hex⟩ := perform_next_cases h
  · exact hs
  · exact exec_keeps_inv hi hs hex

/-! ## The state after reset (R103, R104) -/

theorem State.reset_insts : State.reset.insts = List.replicate Config.numInstances Inst.reset := rfl

theorem State.reset_eu {k : Nat} (h : k < Config.numInstances) : State.reset.eu? k = some Eu.reset := by
  simp [State.eu?, State.reset_insts, h, Inst.reset]

theorem State.reset_du {k : Nat} (h : k < Config.numInstances) : State.reset.du? k = some Du.reset := by
  simp [State.du?, State.reset_insts, h, Inst.reset]

theorem State.reset_inv : State.reset.Inv := by
  refine ⟨List.cons_ne_nil _ _, fun n hn => ?_⟩
  rw [State.reset_insts] at hn
  obtain rfl := List.eq_of_mem_replicate hn
  exact ⟨Eu.reset_inv _, Du.reset_inv _⟩

/-! ## The result of an operation (R85, R107) -/

theorem Eu.result_done {e : Eu} (h : e.status = .done) : e.result = some e.outBuf := by
  simp only [Eu.result, h]

theorem Eu.result_none {e : Eu} (h : e.status ≠ .done) : e.result = none := by
  cases hs : e.status with
  | done => exact absurd hs h
  | idle | busy | error => simp only [Eu.result, hs]

theorem Du.result_done {d : Du} (h : d.status = .done) : d.result = some (.ok d.outBuf) := by
  simp only [Du.result, h]

theorem Du.result_error {d : Du} (h : d.status = .error) : d.result = some (.truncated d.errOffset) := by
  simp only [Du.result, h]

theorem Du.result_none {d : Du} (h : d.status ≠ .done) (h' : d.status ≠ .error) : d.result = none := by
  cases hs : d.status with
  | done => exact absurd hs h
  | error => exact absurd hs h'
  | idle | busy => simp only [Du.result, hs]

/-! ## The statements -/

/-- Settles O54: a step is nothing or one move, a move nothing or one instruction, and an instruction one effect on one unit; the
parser's invariants are carried by its position in the run-block. -/
theorem stepKeepsInvariants : Obligations.StepKeepsInvariants := by
  intro s t hs h
  obtain rfl | ⟨m, s₀, rfl | rfl, hm⟩ := step_next_cases h
  · exact hs
  · exact perform_keeps_inv hs hm
  · exact perform_keeps_inv (s := s.popMove) hs hm

/-- Settles O45: an instruction's effect is on the unit it names, and a write of one unit leaves the others. -/
theorem onlyTheTargetUnitChanges : Obligations.OnlyTheTargetUnitChanges := by
  intro i s t h
  obtain ⟨k, e, e', -, rfl, heff⟩ | ⟨k, d, d', -, rfl, heff⟩ | ⟨rfl, rfl⟩ := exec_next_cases h
  · refine ⟨by simp, rfl, rfl, fun u v hu hv => State.sameUnit_setEu ?_ e' s⟩
    rwa [← Option.some.inj (hu.symm.trans heff.target)]
  · refine ⟨by simp, rfl, rfl, fun u v hu hv => State.sameUnit_setDu ?_ d' s⟩
    rwa [← Option.some.inj (hu.symm.trans heff.target)]
  · exact ⟨by simp, rfl, rfl, nofun⟩

/-- Settles O46, from the writers of a unit's status and error record. -/
theorem statusAndErrorWriters : Obligations.StatusAndErrorWriters := by
  intro i s t k e e' d d' h he he' hd hd'
  refine ⟨fun hne => ?_, fun hne => ?_, fun hne => ?_⟩
  · obtain rfl | heff | ⟨rfl, rfl⟩ := exec_eu_cases h he he'
    · exact absurd rfl hne
    · exact heff.status_cases.resolve_left hne
    · exact .inr (.inr ⟨rfl, .inr rfl⟩)
  · obtain rfl | heff | ⟨rfl, rfl⟩ := exec_du_cases h hd hd'
    · exact absurd rfl hne
    · exact heff.status_cases.resolve_left hne
    · exact .inr (.inr (.inr ⟨rfl, .inr rfl⟩))
  · obtain rfl | heff | ⟨rfl, rfl⟩ := exec_du_cases h hd hd'
    · simp at hne
    · exact heff.errorRecord_cases.resolve_left fun ⟨hc, ho⟩ => hne.elim (absurd hc) (absurd ho)
    · exact .inl ⟨rfl, rfl, .inr (.inr rfl)⟩

/-- Settles O47, from the writers of a unit's program counter. -/
theorem programCounterWriters : Obligations.ProgramCounterWriters := by
  intro i s t k e e' d d' h he he' hd hd'
  constructor
  · obtain rfl | heff | ⟨rfl, rfl⟩ := exec_eu_cases h he he'
    · exact .inl rfl
    · exact heff.inOff_cases
    · exact .inr (.inr ⟨rfl, .inr (.inr rfl)⟩)
  · obtain rfl | heff | ⟨rfl, rfl⟩ := exec_du_cases h hd hd'
    · exact .inl rfl
    · exact heff.inOff_cases
    · exact .inr (.inr (.inr (.inr ⟨rfl, .inr (.inr rfl)⟩)))

/-- Settles O19, by the laws of the two writes of a unit. -/
theorem unitWritesReadBack : Obligations.UnitWritesReadBack := by
  intro s k j e e₀ d d₀
  exact ⟨fun h => State.setEu_eu_same h e, fun h => State.setDu_du_same h d,
    fun hj => ⟨State.setEu_eu_other hj e s, State.setDu_du_other hj d s⟩,
    State.setEu_du j k e s, State.setDu_eu j k d s, State.setEu_length k e s, State.setDu_length k d s,
    rfl, rfl, rfl, rfl⟩

/-- Settles O20: every unit is at its reset values, and an IDLE unit has no enabled step. -/
theorem resetState : Obligations.ResetState := by
  refine ⟨?_, Nat.le_add_left 1 _, rfl, rfl, fun k hk => ⟨State.reset_eu hk, State.reset_du hk, fun kind => ?_⟩⟩
  · simp [State.reset_insts]
  · cases kind with
    | eu => simp only [enabledStep, State.reset_eu hk]; rfl
    | du => simp only [enabledStep, State.reset_du hk]; rfl

/-- Settles O55: the reset values of a unit of either kind have its invariants. -/
theorem resetHasInvariants : Obligations.ResetHasInvariants := State.reset_inv

/-- Settles O60: the outputs are the registers, their encodings the tables of R14 and R15, and the result is read off the status. -/
theorem hostOutputs : Obligations.HostOutputs := by
  intro e d
  refine ⟨⟨rfl, rfl, rfl⟩, ⟨rfl, rfl, rfl, rfl⟩, fun st c hmem => ?_, congrArg ErrCode.code, congrArg ErrCode.code,
    Du.result_done, Du.result_error, Du.result_none, Eu.result_done, Eu.result_none⟩
  have hcode : st.code = c := by
    simp only [List.mem_cons, Prod.mk.injEq, List.not_mem_nil, or_false] at hmem
    obtain ⟨rfl, rfl⟩ | ⟨rfl, rfl⟩ | ⟨rfl, rfl⟩ | ⟨rfl, rfl⟩ := hmem <;> rfl
  exact ⟨fun h => (congrArg Status.code h).trans hcode, fun h => (congrArg Status.code h).trans hcode⟩

end Machine

end Sys2Proof
end

section
/-! Memory, append-only output and the independence of units (20_memory.md). The layer first: what an instruction does to a unit's
buffers, what one step emits, and an instruction as an action on one unit that reads nothing else. Then the statements. -/

namespace Sys2Proof.Machine

/-! ## The effect of an instruction on the unit it names -/

/-- An instruction that names an Encoder Unit has its effect on that unit. -/
theorem exec_eu_effect {i : Instr} {s t : State} {k : Nat} {e e' : Eu} (h : exec i s = .next t)
    (hi : i.target = some { inst := k, kind := .eu }) (he : s.eu? k = some e) (he' : t.eu? k = some e') :
    EuEffect s.offsetWidth k e i e' := by
  obtain ⟨j, f, f', hf, rfl, heff⟩ | ⟨j, d, d', -, -, heff⟩ | ⟨rfl, -⟩ := exec_next_cases h
  · cases hi.symm.trans heff.target
    cases he.symm.trans hf
    cases he'.symm.trans (State.setEu_eu_same hf f')
    exact heff
  · cases hi.symm.trans heff.target
  · cases hi

/-- An instruction that names a Decoder Unit has its effect on that unit. -/
theorem exec_du_effect {i : Instr} {s t : State} {k : Nat} {d d' : Du} (h : exec i s = .next t)
    (hi : i.target = some { inst := k, kind := .du }) (hd : s.du? k = some d) (hd' : t.du? k = some d') :
    DuEffect s.offsetWidth k d i d' := by
  obtain ⟨j, e, e', -, -, heff⟩ | ⟨j, f, f', hf, rfl, heff⟩ | ⟨rfl, -⟩ := exec_next_cases h
  · cases hi.symm.trans heff.target
  · cases hi.symm.trans heff.target
    cases hd.symm.trans hf
    cases hd'.symm.trans (State.setDu_du_same hf f')
    exact heff
  · cases hi

/-! ## Who writes a unit's buffers (R29, R30) -/

/-- An effect keeps an Encoder Unit's input and appends to its output, or it is ENCODE or RESET and empties the output. -/
theorem EuEffect.buffers_cases {w k : Nat} {e e' : Eu} {i : Instr} (h : EuEffect w k e i e') :
    (e'.inBuf = e.inBuf ∧ e'.inLen = e.inLen ∧ e.outBuf <+: e'.outBuf) ∨
      (e'.outBuf = [] ∧ ((∃ x, i = .encode k x) ∨ i.resets { inst := k, kind := .eu })) := by
  cases h with
  | encode => exact .inr ⟨rfl, .inl ⟨_, rfl⟩⟩
  | reset => exact .inr ⟨rfl, .inr (.inl rfl)⟩
  | @byteStep b =>
    refine .inl ⟨Eu.rdByte_inBuf b e, Eu.rdByte_inLen b e, ?_⟩
    simp only [Eu.advance, Eu.outAppend, Eu.rdByte_outBuf]
    exact List.prefix_append _ _
  | finish => exact .inl ⟨rfl, rfl, List.prefix_append _ _⟩
  | rdOpen | rdExtend | rdChunk | rdBreak | rdFlush | fmt => exact .inl ⟨rfl, rfl, List.prefix_rfl⟩

/-- An effect keeps a Decoder Unit's input and appends to its output, or it is DECODE or RESET and empties the output. -/
theorem DuEffect.buffers_cases {w k : Nat} {d d' : Du} {i : Instr} (h : DuEffect w k d i d') :
    (d'.inBuf = d.inBuf ∧ d'.inLen = d.inLen ∧ d.outBuf <+: d'.outBuf) ∨
      (d'.outBuf = [] ∧ ((∃ y, i = .decode k y) ∨ i.resets { inst := k, kind := .du })) := by
  cases h with
  | decode => exact .inr ⟨rfl, .inl ⟨_, rfl⟩⟩
  | reset => exact .inr ⟨rfl, .inr (.inl rfl)⟩
  | lit | val | wireRun | wireLit => exact .inl ⟨rfl, rfl, List.prefix_append _ _⟩
  | sent | len | finishOk | finishTrunc | wireTruncated => exact .inl ⟨rfl, rfl, List.prefix_rfl⟩

/-- What an instruction does to the buffers of the `k`-th Encoder Unit, power-on reset included. -/
theorem exec_eu_buffers_cases {i : Instr} {s t : State} {k : Nat} {e e' : Eu} (h : exec i s = .next t)
    (he : s.eu? k = some e) (he' : t.eu? k = some e') :
    (e'.inBuf = e.inBuf ∧ e'.inLen = e.inLen ∧ e.outBuf <+: e'.outBuf) ∨
      (e'.outBuf = [] ∧ ((∃ x, i = .encode k x) ∨ i.resets { inst := k, kind := .eu })) := by
  obtain rfl | heff | ⟨rfl, rfl⟩ := exec_eu_cases h he he'
  · exact .inl ⟨rfl, rfl, List.prefix_rfl⟩
  · exact heff.buffers_cases
  · exact .inr ⟨rfl, .inr (.inr rfl)⟩

/-- What an instruction does to the buffers of the `k`-th Decoder Unit, power-on reset included. -/
theorem exec_du_buffers_cases {i : Instr} {s t : State} {k : Nat} {d d' : Du} (h : exec i s = .next t)
    (hd : s.du? k = some d) (hd' : t.du? k = some d') :
    (d'.inBuf = d.inBuf ∧ d'.inLen = d.inLen ∧ d.outBuf <+: d'.outBuf) ∨
      (d'.outBuf = [] ∧ ((∃ y, i = .decode k y) ∨ i.resets { inst := k, kind := .du })) := by
  obtain rfl | heff | ⟨rfl, rfl⟩ := exec_du_cases h hd hd'
  · exact .inl ⟨rfl, rfl, List.prefix_rfl⟩
  · exact heff.buffers_cases
  · exact .inr ⟨rfl, .inr (.inr rfl)⟩

/-! ## What an Encoder Unit's step emits (R33, R52) -/

/-- What one step of an Encoder Unit may append for a run of value `v`: nothing or up to five copies of `v`, or six bytes. -/
def IsEmission (v : Byte) (bs : List Byte) : Prop :=
  (bs.length ≤ 5 → bs = List.replicate bs.length v) ∧ bs.length ≤ 6

theorem IsEmission.nil (v : Byte) : IsEmission v [] := ⟨fun _ => rfl, Nat.zero_le 6⟩

theorem IsEmission.replicate (v : Byte) {n : Nat} (hn : n ≤ 6) : IsEmission v (List.replicate n v) := by
  simp [IsEmission, hn]

theorem IsEmission.fmt (v : Byte) (n : Word32) (w : Byte) : IsEmission v (fmt n w) :=
  ⟨fun h => absurd (fmt_length n w ▸ h) (by decide), (fmt_length n w).le⟩

theorem IsEmission.emitRun (v : Byte) (n : Word32) (split : Bool) : IsEmission v (emitRun v n split) := by
  unfold Machine.emitRun
  split_ifs with h
  · exact .fmt v n v
  · have hlt : n.toNat < 6 := Nat.lt_of_not_le fun hle => h (.inr (.inl hle))
    exact .replicate v hlt.le

theorem Eu.rdByte_isEmission (b : Byte) (e : Eu) : IsEmission e.runVal (e.rdByte b).2 := by
  unfold Eu.rdByte
  split_ifs
  · exact .nil _
  · exact .nil _
  · exact .fmt _ _ _
  · exact .emitRun _ _ _

theorem Eu.rdFlush_isEmission (e : Eu) : IsEmission e.runVal e.rdFlush.2 := by
  unfold Eu.rdFlush
  split_ifs
  · exact .emitRun _ _ _
  · exact .nil _

/-! ## Writes of one unit -/

/-- `f` leaves the state as it is or writes the unit `u`, whatever the state is. -/
inductive UnitWrite : UnitId → (State → State) → Prop where
  | keep (u : UnitId) : UnitWrite u id
  | eu (k : Nat) (e : Eu) : UnitWrite { inst := k, kind := .eu } (State.setEu k e)
  | du (k : Nat) (d : Du) : UnitWrite { inst := k, kind := .du } (State.setDu k d)

theorem State.SameUnit.refl (u : UnitId) (s : State) : s.SameUnit u s := by
  obtain ⟨k, kind⟩ := u
  cases kind <;> rfl

theorem State.SameUnit.symm {u : UnitId} {s t : State} (h : s.SameUnit u t) : t.SameUnit u s := by
  obtain ⟨k, kind⟩ := u
  cases kind with
  | eu => exact Eq.symm h
  | du => exact Eq.symm h

/-- A write of one unit leaves every other unit (R13). -/
theorem UnitWrite.sameUnit {u v : UnitId} {f : State → State} (h : UnitWrite u f) (hv : v ≠ u) (s : State) :
    s.SameUnit v (f s) := by
  cases h with
  | keep => exact .refl v s
  | eu k e => exact State.sameUnit_setEu hv e s
  | du k d => exact State.sameUnit_setDu hv d s

theorem State.setEu_comm {j k : Nat} (h : j ≠ k) (e f : Eu) (s : State) :
    (s.setEu j e).setEu k f = (s.setEu k f).setEu j e :=
  congrArg (State.mk s.offsetWidth · s.agenda) (List.modify_modify_ne _ _ _ h)

theorem State.setDu_comm {j k : Nat} (h : j ≠ k) (d f : Du) (s : State) :
    (s.setDu j d).setDu k f = (s.setDu k f).setDu j d :=
  congrArg (State.mk s.offsetWidth · s.agenda) (List.modify_modify_ne _ _ _ h)

/-- Writes of the two kinds of unit commute even within one of the block's positions. -/
theorem State.setEu_setDu_comm (j k : Nat) (e : Eu) (d : Du) (s : State) :
    (s.setEu j e).setDu k d = (s.setDu k d).setEu j e := by
  by_cases h : j = k
  · subst h
    simp only [State.setEu, State.setDu, List.modify_modify_eq]
    rfl
  · exact congrArg (State.mk s.offsetWidth · s.agenda) (List.modify_modify_ne _ _ _ h)

/-- Writes of two different units commute (R36). -/
theorem UnitWrite.comm {u v : UnitId} {f g : State → State} (hf : UnitWrite u f) (hg : UnitWrite v g) (huv : u ≠ v)
    (s : State) : f (g s) = g (f s) := by
  cases hf with
  | keep => rfl
  | eu j e =>
    cases hg with
    | keep => rfl
    | eu k e' => exact (State.setEu_comm (fun h => huv (congrArg (UnitId.mk · .eu) h)) e e' s).symm
    | du k d => exact (State.setEu_setDu_comm j k e d s).symm
  | du j d =>
    cases hg with
    | keep => rfl
    | eu k e => exact State.setEu_setDu_comm k j e d s
    | du k d' => exact (State.setDu_comm (fun h => huv (congrArg (UnitId.mk · .du) h)) d d' s).symm

/-! ## Instructions that act on one unit and read nothing else (R13, R36) -/

/-- What `i` does is an action on the unit `u` alone, told from that unit's own registers. A start command is none: its admission
reads OFFSET_WIDTH (R63, R74). -/
inductive ActsOn (i : Instr) : UnitId → Prop where
  | eu {k : Nat} (f : Eu → Outcome Eu) (h : ∀ s, exec i s = withEu k s f) : ActsOn i { inst := k, kind := .eu }
  | du {k : Nat} (f : Du → Outcome Du) (h : ∀ s, exec i s = withDu k s f) : ActsOn i { inst := k, kind := .du }

/-- Such an instruction writes its unit, and writes the same wherever that unit is the same. -/
theorem ActsOn.exec_next {i : Instr} {u : UnitId} {s t : State} (ha : ActsOn i u) (h : exec i s = .next t) :
    ∃ f, UnitWrite u f ∧ t = f s ∧ ∀ s', s.SameUnit u s' → exec i s' = .next (f s') := by
  cases ha with
  | @eu k f hf =>
    obtain ⟨e, e', he, hfe, rfl⟩ := withEu_eq_next.mp ((hf s).symm.trans h)
    exact ⟨_, .eu k e', rfl, fun s' hs => (hf s').trans (withEu_of_next (Eq.trans hs he) hfe)⟩
  | @du k f hf =>
    obtain ⟨d, d', hd, hfd, rfl⟩ := withDu_eq_next.mp ((hf s).symm.trans h)
    exact ⟨_, .du k d', rfl, fun s' hs => (hf s').trans (withDu_of_next (Eq.trans hs hd) hfd)⟩

theorem Eu.enabled_eq_some {k : Nat} {e : Eu} {i : Instr} (h : e.enabled k = some i) :
    e.status = .busy ∧ ActsOn i { inst := k, kind := .eu } := by
  unfold Eu.enabled at h
  split_ifs at h with hs <;> cases h
  · exact ⟨hs, .eu Eu.byteStep fun _ => rfl⟩
  · exact ⟨hs, .eu Eu.finishStep fun _ => rfl⟩

theorem Du.byteInstr_actsOn (k : Nat) (d : Du) : ActsOn (d.byteInstr k) { inst := k, kind := .du } := by
  unfold Du.byteInstr
  split
  case h_1 =>
    split_ifs
    · exact .du Du.sentStep fun _ => rfl
    · exact .du Du.litStep fun _ => rfl
  case h_6 => exact .du Du.valStep fun _ => rfl
  all_goals exact .du Du.lenStep fun _ => rfl

theorem Du.enabled_eq_some {k : Nat} {d : Du} {i : Instr} (h : d.enabled k = some i) :
    d.status = .busy ∧ ActsOn i { inst := k, kind := .du } := by
  unfold Du.enabled at h
  split_ifs at h with hs <;> cases h
  · exact ⟨hs, Du.byteInstr_actsOn k d⟩
  · exact ⟨hs, .du Du.finishOkStep fun _ => rfl⟩
  · exact ⟨hs, .du Du.finishTruncStep fun _ => rfl⟩

theorem decode_actsOn {k : Nat} {y rest : List Byte} {i : Instr} (h : decode k y = .ok (i, rest)) :
    ActsOn i { inst := k, kind := .du } := by
  unfold decode at h
  split at h
  · cases h
  · split_ifs at h
    · split at h <;> cases h <;> exact .du _ fun _ => rfl
    · cases h; exact .du _ fun _ => rfl

theorem Du.wireInstr_eq_some {k : Nat} {d : Du} {i : Instr} (h : d.wireInstr k = some i) :
    d.status = .busy ∧ ActsOn i { inst := k, kind := .du } := by
  unfold Du.wireInstr at h
  split_ifs at h with hc
  · split at h
    · rename_i hdec
      cases h
      exact ⟨hc.1, decode_actsOn hdec⟩
    · exact Du.enabled_eq_some h
  · exact Du.enabled_eq_some h

/-- A unit with an enabled step is BUSY, and the step is an action on it alone (R64, R75). -/
theorem enabledStep_eq_some {u : UnitId} {s : State} {i : Instr} (h : enabledStep u s = some i) :
    s.Busy u ∧ ActsOn i u := by
  obtain ⟨k, kind⟩ := u
  cases kind with
  | eu =>
    obtain ⟨e, he, hi⟩ := Option.bind_eq_some_iff.mp h
    obtain ⟨hs, ha⟩ := Eu.enabled_eq_some hi
    exact ⟨⟨e, he, hs⟩, ha⟩
  | du =>
    obtain ⟨d, hd, hi⟩ := Option.bind_eq_some_iff.mp h
    obtain ⟨hs, ha⟩ := Du.enabled_eq_some hi
    exact ⟨⟨d, hd, hs⟩, ha⟩

/-- What a wire turn selects is selected by a BUSY unit and is an action on it alone (R80). -/
theorem wireInstr_eq_some {k : Nat} {s : State} {i : Instr} (h : (s.du? k).bind (Du.wireInstr k) = some i) :
    s.Busy { inst := k, kind := .du } ∧ ActsOn i { inst := k, kind := .du } := by
  obtain ⟨d, hd, hi⟩ := Option.bind_eq_some_iff.mp h
  obtain ⟨hs, ha⟩ := Du.wireInstr_eq_some hi
  exact ⟨⟨d, hd, hs⟩, ha⟩

/-! ## A turn of a unit -/

/-- Which step a unit has enabled is told from its own registers. -/
theorem enabledStep_congr {u : UnitId} {s s' : State} (h : s.SameUnit u s') : enabledStep u s' = enabledStep u s := by
  obtain ⟨k, kind⟩ := u
  cases kind with
  | eu => exact congrArg (·.bind (Eu.enabled k)) h
  | du => exact congrArg (·.bind (Du.enabled k)) h

/-- Running nothing or an action on `u` writes `u` at most, and writes the same wherever that unit is the same. -/
theorem runEnabled_next {o : Option Instr} {u : UnitId} {s t : State} (ho : ∀ i, o = some i → ActsOn i u)
    (h : runEnabled o s = .next t) :
    ∃ f, UnitWrite u f ∧ t = f s ∧ ∀ s', s.SameUnit u s' → runEnabled o s' = .next (f s') := by
  cases o with
  | none => cases h; exact ⟨id, .keep u, rfl, fun _ _ => rfl⟩
  | some i => exact (ho i rfl).exec_next h

/-- A turn writes its unit at most, and writes the same wherever that unit is the same. -/
theorem turn_next {u : UnitId} {s t : State} (h : perform (.turn u) s = .next t) :
    ∃ f, UnitWrite u f ∧ t = f s ∧ ∀ s', s.SameUnit u s' → perform (.turn u) s' = .next (f s') := by
  obtain ⟨f, hf, ht, hloc⟩ := runEnabled_next (fun i hi => (enabledStep_eq_some hi).2) h
  exact ⟨f, hf, ht, fun s' hs => (congrArg (runEnabled · s') (enabledStep_congr hs)).trans (hloc s' hs)⟩

/-! ## A unit that is not BUSY (R102, R107) -/

theorem State.Busy.ne_of_quiet {u v : UnitId} {s : State} (hv : s.Busy v) (hu : s.Quiet u) : u ≠ v := by
  rintro rfl
  obtain ⟨k, kind⟩ := u
  cases kind with
  | eu =>
    obtain ⟨e, he, hbusy⟩ := hv
    obtain ⟨e', he', hquiet⟩ := hu
    cases he.symm.trans he'
    exact hquiet hbusy
  | du =>
    obtain ⟨d, hd, hbusy⟩ := hv
    obtain ⟨d', hd', hquiet⟩ := hu
    cases hd.symm.trans hd'
    exact hquiet hbusy

/-- What a BUSY unit has selected leaves every unit that is not BUSY. -/
theorem ActsOn.sameUnit_of_quiet {i : Instr} {u v : UnitId} {s t : State} (ha : ActsOn i v) (hv : s.Busy v)
    (hu : s.Quiet u) (h : exec i s = .next t) : s.SameUnit u t := by
  obtain ⟨f, hf, rfl, -⟩ := ha.exec_next h
  exact hf.sameUnit (hv.ne_of_quiet hu) s

/-- An instruction that names another unit leaves `u`. -/
theorem exec_sameUnit {i : Instr} {u : UnitId} {s t : State} (h : exec i s = .next t) (hu : i.target ≠ some u)
    (hnone : i.target ≠ none) : s.SameUnit u t := by
  obtain ⟨v, hv⟩ := Option.ne_none_iff_exists'.mp hnone
  obtain ⟨-, -, -, hsame⟩ := onlyTheTargetUnitChanges i s t h
  exact hsame v u hv fun huv => hu (huv ▸ hv)

/-- A move that is no command for it leaves a unit that is not BUSY. -/
theorem perform_sameUnit_of_quiet {m : Move} {u : UnitId} {s t : State} (hu : s.Quiet u)
    (hm : ∀ c, m = .host c → c.toInstr.target ≠ some u ∧ c.toInstr.target ≠ none) (h : perform m s = .next t) :
    s.SameUnit u t := by
  cases m with
  | host c =>
    obtain ⟨htarget, hnone⟩ := hm c rfl
    exact exec_sameUnit h htarget hnone
  | turn v =>
    obtain rfl | ⟨i, hi, hex⟩ := runEnabled_eq_next h
    · exact .refl u _
    · obtain ⟨hv, ha⟩ := enabledStep_eq_some hi
      exact ha.sameUnit_of_quiet hv hu hex
  | wireTurn k =>
    obtain rfl | ⟨i, hi, hex⟩ := runEnabled_eq_next h
    · exact .refl u _
    · obtain ⟨hv, ha⟩ := wireInstr_eq_some hi
      exact ha.sameUnit_of_quiet hv hu hex

/-- Where a step's move comes from: the head of the agenda, or a turn of a unit where the agenda holds none; or nothing moves. -/
theorem step_next_sources {s t : State} (h : step s = .next t) :
    t = s ∨ (∃ m rest, s.agenda = m :: rest ∧ perform m s.popMove = .next t) ∨ ∃ v, perform (.turn v) s = .next t := by
  unfold step at h
  split at h
  · rename_i m rest hagenda
    exact .inr (.inl ⟨m, rest, hagenda, h⟩)
  · unfold performIdle at h
    split at h
    · exact .inr (.inr ⟨_, h⟩)
    · cases h; exact .inl rfl

/-! ## The statements -/

/-- Settles O48, from the writers of a unit's buffers. -/
theorem inputLatchedOutputAppendOnly : Obligations.InputLatchedOutputAppendOnly := by
  intro i s t k e e' d d' h he he' hd hd'
  have heu := exec_eu_buffers_cases h he he'
  have hdu := exec_du_buffers_cases h hd hd'
  refine ⟨fun hne => ?_, fun hne => ?_, heu.imp_left fun ⟨_, _, hout⟩ => hout, hdu.imp_left fun ⟨_, _, hout⟩ => hout⟩
  · obtain ⟨hbuf, hlen, -⟩ | ⟨-, hwriter⟩ := heu
    · exact absurd hlen (hne.resolve_left (absurd hbuf))
    · exact hwriter
  · obtain ⟨hbuf, hlen, -⟩ | ⟨-, hwriter⟩ := hdu
    · exact absurd hlen (hne.resolve_left (absurd hbuf))
    · exact hwriter

/-- Settles O49: the run detector returns an emission of the open run, and each step of a Decoder Unit has one effect. -/
theorem bytesAppendedPerStep : Obligations.BytesAppendedPerStep := by
  intro k s t e e' d d' he he' hd hd'
  refine ⟨?_, ?_, fun h => ?_, ?_⟩
  · rintro (h | h)
    · cases exec_eu_effect h rfl he he' with
      | @byteStep b => exact ⟨_, congrArg (· ++ _) (Eu.rdByte_outBuf b e), Eu.rdByte_isEmission b e⟩
    · cases exec_eu_effect h rfl he he' with
      | finish => exact ⟨_, rfl, Eu.rdFlush_isEmission e⟩
  · rintro (h | h | h)
    · cases exec_du_effect h rfl hd hd' with
      | @lit b => exact ⟨[b], rfl, le_rfl⟩
    · cases exec_du_effect h rfl hd hd' with
      | sent => exact ⟨[], (List.append_nil _).symm, Nat.zero_le 1⟩
    · cases exec_du_effect h rfl hd hd' with
      | len => exact ⟨[], (List.append_nil _).symm, Nat.zero_le 1⟩
  · cases exec_du_effect h rfl hd hd' with
    | @val b =>
      have hlen : (List.replicate d.lenAcc.toNat b).length = d.lenAcc.toNat := List.length_replicate
      exact ⟨_, rfl, hlen, hlen.trans_le (le_maxRun d.lenAcc)⟩
  · rintro (h | h)
    · cases exec_du_effect h rfl hd hd' with
      | finishOk => rfl
    · cases exec_du_effect h rfl hd hd' with
      | finishTrunc => rfl

/-- Settles O58: only a BUSY unit has an instruction of its own selected, and what it runs writes no other unit. -/
theorem resultsStayUntilTheNextCommand : Obligations.ResultsStayUntilTheNextCommand := by
  intro s t u hu hno h
  obtain rfl | ⟨m, rest, hagenda, hm⟩ | ⟨v, hv⟩ := step_next_sources h
  · exact .refl u _
  · exact perform_sameUnit_of_quiet (s := s.popMove) hu (fun c hc => hno c rest (hc ▸ hagenda)) hm
  · exact perform_sameUnit_of_quiet (m := .turn v) hu nofun hv

/-- Settles O59: each turn is a write of its own unit that is the same in either order, and writes of two units commute. -/
theorem unitsAreIndependent : Obligations.UnitsAreIndependent := by
  intro s s₁ t u v huv hu hv
  obtain ⟨f, hf, rfl, hfloc⟩ := turn_next hu
  obtain ⟨g, hg, rfl, hgloc⟩ := turn_next hv
  have hv' : perform (.turn v) s = .next (g s) := hgloc s (hf.sameUnit huv.symm s).symm
  have hu' : perform (.turn u) (g s) = .next (f (g s)) := hfloc (g s) (hg.sameUnit huv s)
  exact ⟨g s, hv', hf.comm hg huv s ▸ hu'⟩

end Sys2Proof.Machine
end

section
/-! The wire format (30_encoding.md). The layer first: well-formedness and bytes of the three wire units, what a parsed stream means,
where a stream is truncated, and the step on a wire turn. Then the statements. -/

namespace Sys2Proof

/-! ## The three wire units (R42, R43, R46) -/

theorem Instr.wf_lit {k : Nat} {v : Byte} : (Instr.lit k v).wf = true ↔ v ≠ Config.sentinel := decide_eq_true_iff

theorem Instr.wf_truncated {k : Nat} {tail : List Byte} : (Instr.truncated k tail).wf = true ↔ tail.length < 5 :=
  decide_eq_true_iff

/-- The length field's bytes come back from the assembled word: the inverse direction of `be32_extract` (R44). -/
theorem be32bytes_be32 (l0 l1 l2 l3 : Byte) : be32bytes (be32 l0 l1 l2 l3) = [l0, l1, l2, l3] := by
  have h0 := l0.isLt
  have h1 := l1.isLt
  have h2 := l2.isLt
  have h3 := l3.isLt
  simp only [be32bytes, List.cons.injEq, and_true]
  refine ⟨?_, ?_, ?_, ?_⟩ <;> apply BitVec.eq_of_toNat_eq <;>
    simp only [BitVec.extractLsb'_toNat, be32_toNat, Nat.shiftRight_eq_div_pow] <;> omega

theorem encode_run (k : Nat) (n : Word32) (v : Byte) :
    encode (.run k n v) = some (Config.sentinel :: be32bytes n ++ [v]) := rfl

theorem encode_run_be32 (k : Nat) (l0 l1 l2 l3 v : Byte) :
    encode (.run k (be32 l0 l1 l2 l3) v) = some [Config.sentinel, l0, l1, l2, l3, v] := by
  rw [encode_run, be32bytes_be32]; rfl

theorem unitLength_sentinel : unitLength Config.sentinel = 6 := rfl

theorem unitLength_of_ne {b : Byte} (h : b ≠ Config.sentinel) : unitLength b = 1 := if_neg h

/-- The empty stream alone starts with no wire unit. -/
theorem ne_nil_of_decode_eq_ok {k : Nat} {y rest : List Byte} {i : Instr} (h : decode k y = .ok (i, rest)) : y ≠ [] := by
  rintro rfl
  cases h

theorem decodeTableWord_eq_some {nbits w : Nat} {i : Instr} (h : decodeTableWord nbits w = some i) :
    ∃ rest, decode 0 (tableBytes nbits w) = .ok (i, rest) := by
  unfold decodeTableWord at h
  split at h
  · rename_i rest hdec
    cases h
    exact ⟨rest, hdec⟩
  · cases h

namespace Machine

/-! ## What a decoded stream means (R41, R42, R43, R83) -/

/-- The bytes a unit of a parsed stream stands for (R42, R43); a parse has no other rows. -/
def unitOutput : Instr → List Byte
  | .lit _ v => [v]
  | .run _ n v => List.replicate n.toNat v
  | _ => []

/-- The result for a stream, from that for the part after its first `n` bytes, which decode to `bs`. -/
def DecodeResult.after (n : Nat) (bs : List Byte) : DecodeResult → DecodeResult
  | .ok x => .ok (bs ++ x)
  | .truncated j => .truncated (j + n)

theorem DecodeResult.after_eq_ok {n : Nat} {bs x : List Byte} {r : DecodeResult} :
    r.after n bs = .ok x ↔ ∃ x', r = .ok x' ∧ x = bs ++ x' := by
  cases r <;> simp [DecodeResult.after, eq_comm]

theorem DecodeResult.after_eq_truncated {n i : Nat} {bs : List Byte} {r : DecodeResult} :
    r.after n bs = .truncated i ↔ ∃ j, i = j + n ∧ r = .truncated j := by
  cases r <;> simp [DecodeResult.after, eq_comm]

theorem dec_eq_after (i : Nat) (acc y : List Byte) : dec i acc y = (refDecode y).after i acc := by
  rw [dec_shift, refDecode]
  cases dec 0 [] y <;> simp [DecodeResult.after, Nat.add_comm]

theorem refDecode_run (l0 l1 l2 l3 v : Byte) (rest : List Byte) :
    refDecode (Config.sentinel :: l0 :: l1 :: l2 :: l3 :: v :: rest) =
      (refDecode rest).after 6 (List.replicate (be32 l0 l1 l2 l3).toNat v) :=
  (dec_run 0 [] l0 l1 l2 l3 v rest).trans (dec_eq_after 6 _ rest)

theorem refDecode_trunc {t : List Byte} (h : t.length < 5) : refDecode (Config.sentinel :: t) = .truncated 0 :=
  dec_trunc 0 [] h

theorem refDecode_lit {b : Byte} (h : b ≠ Config.sentinel) (t : List Byte) :
    refDecode (b :: t) = (refDecode t).after 1 [b] :=
  (dec_lit 0 [] h t).trans (dec_eq_after 1 [b] t)

/-- A stream decodes exactly when it parses whole, and then to what its units stand for, in order. -/
theorem refDecode_eq_ok_iff (k : Nat) (y : List Byte) : ∀ x,
    refDecode y = .ok x ↔ ∃ us, parseUnits k y = some us ∧ x = (us.map unitOutput).flatten := by
  induction y using wire_induction with
  | nil => intro x; simp [refDecode, eq_comm]
  | run l0 l1 l2 l3 v rest ih =>
    intro x
    generalize hn : be32 l0 l1 l2 l3 = n
    simp [refDecode_run, DecodeResult.after_eq_ok, ih, hn, unitOutput]
  | trunc t ht => intro x; simp [refDecode_trunc ht, parseUnits_trunc k ht]
  | lit b t hb ih => intro x; simp [refDecode_lit hb, DecodeResult.after_eq_ok, ih, parseUnits_lit k hb, unitOutput]

/-! ## Where a stream is truncated (R46) -/

/-- The stream parses whole into units. -/
def ParsesWhole (k : Nat) (y : List Byte) : Prop := ∃ us, parseUnits k y = some us

theorem parsesWhole_nil (k : Nat) : ParsesWhole k [] := ⟨[], rfl⟩

theorem parsesWhole_run {k : Nat} {l0 l1 l2 l3 v : Byte} {rest : List Byte} :
    ParsesWhole k (Config.sentinel :: l0 :: l1 :: l2 :: l3 :: v :: rest) ↔ ParsesWhole k rest := by
  simp [ParsesWhole]

theorem not_parsesWhole_trunc (k : Nat) {t : List Byte} (h : t.length < 5) : ¬ParsesWhole k (Config.sentinel :: t) := by
  simp [ParsesWhole, parseUnits_trunc k h]

theorem parsesWhole_lit {k : Nat} {b : Byte} (h : b ≠ Config.sentinel) {t : List Byte} :
    ParsesWhole k (b :: t) ↔ ParsesWhole k t := by
  simp [ParsesWhole, parseUnits_lit k h]

/-- After whole units, a sentinel stands at index `i` with fewer than 5 bytes after it. -/
def TruncatedAt (k : Nat) (y : List Byte) (i : Nat) : Prop :=
  ParsesWhole k (y.take i) ∧ y[i]? = some Config.sentinel ∧ y.length - i < 6

theorem not_truncatedAt_nil (k i : Nat) : ¬TruncatedAt k [] i := by simp [TruncatedAt]

/-- No index inside a whole run-block is the truncated one: from its sentinel on six bytes are left, and a stream cut
inside it does not parse whole. -/
theorem truncatedAt_run {k i : Nat} {l0 l1 l2 l3 v : Byte} {rest : List Byte} :
    TruncatedAt k (Config.sentinel :: l0 :: l1 :: l2 :: l3 :: v :: rest) i ↔ ∃ j, i = j + 6 ∧ TruncatedAt k rest j := by
  constructor
  · rintro ⟨hparse, hget, hlen⟩
    obtain rfl | hpos := Nat.eq_zero_or_pos i
    · simp only [List.length_cons] at hlen
      omega
    obtain hlt | hge := Nat.lt_or_ge i 6
    · obtain ⟨m, rfl⟩ := Nat.exists_eq_add_of_lt hpos
      rw [Nat.zero_add, List.take_succ_cons] at hparse
      refine absurd hparse (not_parsesWhole_trunc k ((List.length_take_le _ _).trans_lt ?_))
      omega
    · obtain ⟨j, rfl⟩ := Nat.exists_eq_add_of_le' hge
      refine ⟨j, rfl, parsesWhole_run.mp hparse, hget, ?_⟩
      simp only [List.length_cons] at hlen
      omega
  · rintro ⟨j, rfl, hparse, hget, hlen⟩
    refine ⟨parsesWhole_run.mpr hparse, hget, ?_⟩
    simp only [List.length_cons]
    omega

theorem truncatedAt_trunc {k i : Nat} {t : List Byte} (h : t.length < 5) :
    TruncatedAt k (Config.sentinel :: t) i ↔ i = 0 := by
  constructor
  · rintro ⟨hparse, -⟩
    cases i with
    | zero => rfl
    | succ m => exact absurd hparse (not_parsesWhole_trunc k ((List.length_take_le' _ _).trans_lt h))
  · rintro rfl
    exact ⟨parsesWhole_nil k, rfl, Nat.succ_lt_succ h⟩

theorem truncatedAt_lit {k i : Nat} {b : Byte} (h : b ≠ Config.sentinel) {t : List Byte} :
    TruncatedAt k (b :: t) i ↔ ∃ j, i = j + 1 ∧ TruncatedAt k t j := by
  cases i with
  | zero => simp [TruncatedAt, h]
  | succ j => simp [TruncatedAt, parsesWhole_lit h]

/-- Decoding reports exactly the sentinel of a truncated run-block. -/
theorem refDecode_eq_truncated_iff (k : Nat) (y : List Byte) : ∀ i, refDecode y = .truncated i ↔ TruncatedAt k y i := by
  induction y using wire_induction with
  | nil => intro i; simp [refDecode, not_truncatedAt_nil]
  | run l0 l1 l2 l3 v rest ih =>
    intro i
    rw [refDecode_run, DecodeResult.after_eq_truncated, truncatedAt_run]
    simp only [ih]
  | trunc t ht => intro i; simp [refDecode_trunc ht, truncatedAt_trunc ht, eq_comm]
  | lit b t hb ih =>
    intro i
    rw [refDecode_lit hb, DecodeResult.after_eq_truncated, truncatedAt_lit hb]
    simp only [ih]

/-! ## A whole wire unit where its guard is met (R76, R80, R82, R92) -/

theorem exec_lit {k : Nat} {v : Byte} {s : State} {d : Du} (hd : s.du? k = some d) (hv : v ≠ Config.sentinel)
    (hs : d.status = .busy) (hp : d.phase = .head) (hi : d.inOff + 1 ≤ d.inLen) :
    exec (.lit k v) s = .next (s.setDu k ((d.outAppend [v]).advance 1)) :=
  withDu_of_next hd ((if_neg hv).trans (if_pos ⟨hs, hp, hi⟩))

theorem exec_run {k : Nat} {s : State} {d : Du} (hd : s.du? k = some d) (hs : d.status = .busy) (hp : d.phase = .head)
    (hi : d.inOff + Config.blockLen ≤ d.inLen) (n : Word32) (v : Byte) :
    exec (.run k n v) s = .next (s.setDu k
      ({ d.outAppend (List.replicate n.toNat v) with blkOff := d.inOff, lenAcc := 0, phase := .head }.advance
        Config.blockLen)) :=
  withDu_of_next hd (if_pos ⟨hs, hp, hi⟩)

theorem exec_truncated {k : Nat} {tail : List Byte} {s : State} {d : Du} (hd : s.du? k = some d) (ht : tail.length < 5)
    (hs : d.status = .busy) (hp : d.phase = .head) (hi : d.inOff + 1 + tail.length = d.inLen) :
    exec (.truncated k tail) s = .next (s.setDu k
      (({ d with blkOff := d.inOff }.advance (1 + tail.length)).raiseTruncated d.inOff)) :=
  withDu_of_next hd ((if_neg (Nat.not_le_of_lt ht)).trans (if_pos ⟨hs, hp, hi⟩))

/-! ## The step on a wire turn (R41, R75; logs 5 and 9) -/

theorem Du.wireInstr_of_decode {k : Nat} {d : Du} {i : Instr} {after : List Byte} (hs : d.status = .busy)
    (hp : d.phase = .head) (hi : d.inOff < d.inLen) (h : decode k d.stream = .ok (i, after)) : d.wireInstr k = some i := by
  simp [Du.wireInstr, hs, hp, hi, h]

theorem step_wireTurn {s : State} {k : Nat} {d : Du} {i : Instr} {rest : List Move} (ha : s.agenda = .wireTurn k :: rest)
    (hd : s.du? k = some d) (hi : d.wireInstr k = some i) : step s = exec i { s with agenda := rest } := by
  have hpop : s.popMove = { s with agenda := rest } := by rw [State.popMove, ha, List.tail_cons]
  calc step s = runEnabled ((s.du? k).bind (Du.wireInstr k)) s.popMove := by simp only [step, ha]; rfl
    _ = exec i s.popMove := by rw [hd, Option.bind_some, hi]; rfl
    _ = exec i { s with agenda := rest } := by rw [hpop]

/-- Right after its start the whole stream lies before the unit. -/
theorem Du.start_stream (y : List Byte) : (Du.start y).stream = y := List.take_length

theorem State.exists_du_zero {s : State} (h : s.insts ≠ []) : ∃ d, s.du? 0 = some d := by
  obtain ⟨n, l, hl⟩ := List.exists_cons_of_ne_nil h
  exact ⟨n.du, State.du?_eq_some.mpr ⟨n, by simp [hl], rfl⟩⟩

theorem State.withFetchWord_du {s : State} (h : s.insts ≠ []) (nbits w : Nat) :
    (s.withFetchWord nbits w).du? 0 = some (Du.start (tableBytes nbits w)) := by
  obtain ⟨d, hd⟩ := State.exists_du_zero h
  exact State.setDu_du_same hd _

/-! ## The statements -/

/-- Settles O2: the decoder's case for each unit, with the length field assembled from its own bytes. -/
theorem decodeInvertsEncode : Obligations.DecodeInvertsEncode := by
  intro k
  refine ⟨fun n v rest => ⟨_, rfl, ?_⟩, fun v rest hv => ⟨_, rfl, ?_⟩, fun tail ht => ⟨_, rfl, ?_⟩⟩
  · exact (decode_run k _ _ _ _ v rest).trans (by rw [be32_extract])
  · exact decode_lit k (Instr.wf_lit.mp hv) rest
  · exact decode_trunc k (Instr.wf_truncated.mp ht)

/-- Settles O3, by the shapes of a stream's head. -/
theorem encodeInvertsDecode : Obligations.EncodeInvertsDecode := by
  intro k y i rest h
  induction y using wire_induction with
  | nil => cases h
  | run l0 l1 l2 l3 v t =>
    cases (decode_run k l0 l1 l2 l3 v t).symm.trans h
    exact ⟨rfl, rfl, _, encode_run_be32 k l0 l1 l2 l3 v, rfl⟩
  | trunc t ht =>
    cases (decode_trunc k ht).symm.trans h
    exact ⟨Instr.wf_truncated.mpr ht, rfl, _, rfl, (List.append_nil _).symm⟩
  | lit b t hb =>
    cases (decode_lit k hb t).symm.trans h
    exact ⟨Instr.wf_lit.mpr hb, rfl, _, rfl, rfl⟩

/-- Settles O4, by the decoder's case for each unit. -/
theorem firstByteTellsUnit : Obligations.FirstByteTellsUnit := by
  intro k b t
  refine ⟨fun hb => ⟨decode_lit k hb t, unitLength_of_ne hb⟩, ?_, ?_⟩
  · rintro rfl hlen
    match t, hlen with
    | l0 :: l1 :: l2 :: l3 :: v :: rest, _ =>
      refine ⟨_, v, rest, decode_run k l0 l1 l2 l3 v rest, ?_, unitLength_sentinel⟩
      exact Nat.add_comm rest.length 6
  · rintro rfl hlen
    exact decode_trunc k hlen

/-- Settles O5: the assembled word has the weights of R10 and gives its four bytes back. -/
theorem lengthFieldIsBigEndian : Obligations.LengthFieldIsBigEndian := by
  intro k l0 l1 l2 l3 v rest
  refine ⟨be32 l0 l1 l2 l3, decode_run k l0 l1 l2 l3 v rest, ?_, le_maxRun _, be32bytes_be32 l0 l1 l2 l3,
    fun hv => decode_lit k hv rest⟩
  rw [be32_toNat]
  omega

/-- Settles O17, from the exact conditions of both results of decoding. -/
theorem decodeFailsExactlyAtTruncatedBlock : Obligations.DecodeFailsExactlyAtTruncatedBlock := by
  intro k y
  refine ⟨refDecode_eq_truncated_iff k y, ?_, ?_⟩
  · rintro ⟨x, hx⟩
    obtain ⟨us, hus, -⟩ := (refDecode_eq_ok_iff k y x).mp hx
    exact ⟨us, hus⟩
  · rintro ⟨us, hus⟩
    exact ⟨_, (refDecode_eq_ok_iff k y _).mpr ⟨us, hus, rfl⟩⟩

/-- Settles O18: the parts are what the parsed units stand for. -/
theorem decodedOutputOfUnits : Obligations.DecodedOutputOfUnits := by
  intro k y us hus
  refine ⟨us.map unitOutput, (refDecode_eq_ok_iff k y _).mpr ⟨us, hus, rfl⟩, List.length_map _, fun j => ⟨?_, ?_⟩⟩
  · intro v hj
    simp [hj, unitOutput]
  · intro n v hj
    simp [hj, unitOutput]

/-- Settles O1, by running the decoder on each word. -/
theorem tabulatedWordsDecode : Obligations.TabulatedWordsDecode :=
  ⟨by decide, by decide, by decide, by decide, rfl, rfl⟩

/-- Settles O40: at a unit boundary each row's guard is met; `phase` is HEAD before and after. -/
theorem wireUnitResults : Obligations.WireUnitResults := by
  intro k n v tail s d hd hs hp
  refine ⟨fun hv hi => exec_lit hd hv hs hp hi, fun hi => ?_, fun ht hi => ?_⟩
  · rw [exec_run hd hs hp hi, ← hp]
    rfl
  · rw [exec_truncated hd (Nat.lt_succ_of_le ht) hs hp hi, ← hi, Nat.add_assoc, Du.raiseTruncated, ← hp]
    rfl

/-- Settles O52: a wire turn selects the unit that is decoded, and a placed word is the stream of a unit at its start. -/
theorem stepRunsTheDecodedUnit : Obligations.StepRunsTheDecodedUnit := by
  refine ⟨fun s k d i after rest ha hd hs hp hi hdec => step_wireTurn ha hd (Du.wireInstr_of_decode hs hp hi hdec),
    fun s nbits w i hne hw => ?_⟩
  obtain ⟨after, hdec⟩ := decodeTableWord_eq_some hw
  have hlen : (Du.start (tableBytes nbits w)).inOff < (Du.start (tableBytes nbits w)).inLen :=
    List.length_pos_iff.mpr (ne_nil_of_decode_eq_ok hdec)
  have hstream : decode 0 (Du.start (tableBytes nbits w)).stream = .ok (i, after) := (Du.start_stream _).symm ▸ hdec
  exact step_wireTurn rfl (State.withFetchWord_du hne nbits w) (Du.wireInstr_of_decode rfl rfl hlen hstream)

end Machine

end Sys2Proof
end

section
/-! The run detector and the formatter (40_run_detector_formatter.md). The layer first: emission, the overflow split, runs, the
detector's registers while a run is open, and its operations as rows. Then the statements. -/

namespace Sys2Proof.Machine

/-! ## Emission and the overflow split (R52, R53, R54) -/

theorem emitRun_block {v : Byte} {L : Word32} {s : Bool}
    (h : s = true ∨ Config.threshold ≤ L.toNat ∨ v = Config.sentinel) : emitRun v L s = fmt L v := if_pos h

theorem emitRun_literals {v : Byte} {L : Word32} (hL : L.toNat < Config.threshold) (hv : v ≠ Config.sentinel) :
    emitRun v L false = List.replicate L.toNat v :=
  if_neg (by simp [hL, hv])

theorem fullBlocks_of_le {n : Nat} (h : n ≤ Config.maxRun) : fullBlocks n = 0 := by
  simp only [fullBlocks, Config.maxRun] at *
  omega

theorem one_le_fullBlocks {n : Nat} (h : Config.maxRun < n) : 1 ≤ fullBlocks n := by
  simp only [fullBlocks, Config.maxRun] at *
  omega

theorem remainder_of_le {n : Nat} (h : n ≤ Config.maxRun) : remainder n = n := by
  simp [remainder, fullBlocks_of_le h]

theorem one_le_remainder {n : Nat} (h : 1 ≤ n) : 1 ≤ remainder n := by
  simp only [remainder, fullBlocks, Config.maxRun]
  omega

theorem remainder_le (n : Nat) : remainder n ≤ Config.maxRun := by
  simp only [remainder, fullBlocks, Config.maxRun]
  omega

theorem fullBlocks_mul_add_remainder (n : Nat) : n = fullBlocks n * Config.maxRun + remainder n := by
  simp only [remainder, fullBlocks, Config.maxRun]
  omega

/-- Below MAX_RUN one more byte goes to the last part. -/
theorem split_succ_of_lt {n : Nat} (h : remainder n < Config.maxRun) :
    fullBlocks (n + 1) = fullBlocks n ∧ remainder (n + 1) = remainder n + 1 ∧
      (Config.maxRun < n + 1 ↔ Config.maxRun < n) := by
  simp only [remainder, fullBlocks, Config.maxRun] at *
  omega

/-- At MAX_RUN one more byte makes the last part a full block and opens the next. -/
theorem split_succ_of_eq {n : Nat} (h : remainder n = Config.maxRun) :
    fullBlocks (n + 1) = fullBlocks n + 1 ∧ remainder (n + 1) = 1 ∧ Config.maxRun < n + 1 := by
  simp only [remainder, fullBlocks, Config.maxRun] at *
  omega

/-- A length of at most MAX_RUN fits the 32-bit register (R22). -/
theorem toNat_ofNat_of_le {n : Nat} (h : n ≤ Config.maxRun) : (BitVec.ofNat 32 n).toNat = n :=
  (BitVec.toNat_ofNat n 32).trans (Nat.mod_eq_of_lt (Nat.lt_succ_of_le h))

/-- The full run-blocks that precede the last part of a run (R53). -/
def fullBlockBytes (v : Byte) (n : Nat) : List Byte :=
  (List.replicate (fullBlocks n) (fmt Config.maxRunWord v)).flatten

theorem fullBlockBytes_of_le {n : Nat} (v : Byte) (h : n ≤ Config.maxRun) : fullBlockBytes v n = [] := by
  simp [fullBlockBytes, fullBlocks_of_le h]

theorem fullBlockBytes_length (v : Byte) (n : Nat) : (fullBlockBytes v n).length = 6 * fullBlocks n := by
  simp [fullBlockBytes, fmt_length, Config.blockLen, Nat.mul_comm]

/-- Split or not, a run's segment is its full blocks and then the emission of its last part (R54, R62). -/
theorem seg_eq (v : Byte) (n : Nat) :
    seg v n = fullBlockBytes v n ++ emitRun v (BitVec.ofNat 32 (remainder n)) (decide (Config.maxRun < n)) := by
  unfold seg
  split_ifs with h
  · rw [fullBlockBytes_of_le v h, remainder_of_le h, decide_eq_false (Nat.not_lt_of_le h), List.nil_append]
  · rw [decide_eq_true (Nat.lt_of_not_le h), emitRun_block (.inl rfl)]
    rfl

/-! ## Runs (R51) -/

theorem runsFrom_cons_same (v : Byte) (n : Nat) (t : List Byte) : runsFrom v n (v :: t) = runsFrom v (n + 1) t :=
  if_pos rfl

theorem runsFrom_cons_other {b v : Byte} (h : b ≠ v) (n : Nat) (t : List Byte) :
    runsFrom v n (b :: t) = (v, n) :: runs (b :: t) := if_neg h

theorem runsFrom_replicate_append (v : Byte) (n m : Nat) (t : List Byte) :
    runsFrom v n (List.replicate m v ++ t) = runsFrom v (n + m) t := by
  induction m generalizing n with
  | zero => rfl
  | succ m ih =>
    rw [List.replicate_succ, List.cons_append, runsFrom_cons_same, ih, Nat.add_assoc, Nat.add_comm 1 m]

/-- The first run has the value of the first byte. -/
theorem runsFrom_eq_cons (v : Byte) (n : Nat) (t : List Byte) : ∃ m l, runsFrom v n t = (v, m) :: l := by
  induction t generalizing n with
  | nil => exact ⟨n, [], rfl⟩
  | cons b t ih =>
    by_cases hb : b = v
    · subst hb
      exact runsFrom_cons_same b n t ▸ ih (n + 1)
    · exact ⟨n, _, runsFrom_cons_other hb n t⟩

/-- No run that follows starts with the value `v`. -/
def NextDiffers (v : Byte) (l : List (Byte × Nat)) : Prop := ∀ r ∈ l.head?, v ≠ r.1

theorem nextDiffers_runs_cons {v b : Byte} {t : List Byte} : NextDiffers v (runs (b :: t)) ↔ v ≠ b := by
  obtain ⟨m, l, h⟩ := runsFrom_eq_cons b 1 t
  simp [NextDiffers, runs, h]

/-- The open run ends where another value follows. -/
theorem runsFrom_of_nextDiffers {v : Byte} {t : List Byte} (h : NextDiffers v (runs t)) (n : Nat) :
    runsFrom v n t = (v, n) :: runs t := by
  cases t with
  | nil => rfl
  | cons b t => exact runsFrom_cons_other (nextDiffers_runs_cons.mp h).symm n t

/-- What R51 asks of the list of runs of `x`. -/
structure IsRunsOf (x : List Byte) (l : List (Byte × Nat)) : Prop where
  covers : (l.map fun r => List.replicate r.2 r.1).flatten = x
  nonempty : ∀ r ∈ l, 1 ≤ r.2
  maximal : List.IsChain (fun a b => a.1 ≠ b.1) l

theorem isRunsOf_nil : IsRunsOf [] [] := ⟨rfl, by simp, .nil⟩

theorem isRunsOf_cons {x : List Byte} {v : Byte} {n : Nat} {l : List (Byte × Nat)} :
    IsRunsOf x ((v, n) :: l) ↔ 1 ≤ n ∧ NextDiffers v l ∧ ∃ t, x = List.replicate n v ++ t ∧ IsRunsOf t l := by
  constructor
  · rintro ⟨rfl, hlen, hchain⟩
    obtain ⟨hn, hl⟩ := List.forall_mem_cons.mp hlen
    obtain ⟨hnext, hl'⟩ := List.isChain_cons.mp hchain
    exact ⟨hn, hnext, _, rfl, rfl, hl, hl'⟩
  · rintro ⟨hn, hnext, t, rfl, rfl, hl, hl'⟩
    exact ⟨rfl, List.forall_mem_cons.mpr ⟨hn, hl⟩, List.isChain_cons.mpr ⟨hnext, hl'⟩⟩

theorem isRunsOf_runsFrom (v : Byte) {n : Nat} (hn : 1 ≤ n) (t : List Byte) :
    IsRunsOf (List.replicate n v ++ t) (runsFrom v n t) := by
  induction t generalizing v n with
  | nil => exact isRunsOf_cons.mpr ⟨hn, by simp [NextDiffers], [], rfl, isRunsOf_nil⟩
  | cons b t ih =>
    by_cases hb : b = v
    · subst hb
      have h := ih b (Nat.le_add_left 1 n)
      rwa [List.replicate_succ', List.append_assoc, ← runsFrom_cons_same] at h
    · rw [runsFrom_cons_other hb]
      exact isRunsOf_cons.mpr ⟨hn, nextDiffers_runs_cons.mpr (Ne.symm hb), _, rfl, ih b le_rfl⟩

theorem isRunsOf_runs (x : List Byte) : IsRunsOf x (runs x) := by
  cases x with
  | nil => exact isRunsOf_nil
  | cons b t => exact isRunsOf_runsFrom b le_rfl t

theorem IsRunsOf.eq_runs {x : List Byte} {l : List (Byte × Nat)} (h : IsRunsOf x l) : l = runs x := by
  induction l generalizing x with
  | nil => obtain ⟨rfl, -, -⟩ := h; rfl
  | cons r l ih =>
    obtain ⟨v, n⟩ := r
    obtain ⟨hn, hnext, t, rfl, ht⟩ := isRunsOf_cons.mp h
    obtain ⟨m, rfl⟩ := Nat.exists_eq_add_of_le hn
    cases ih ht
    calc (v, 1 + m) :: runs t = runsFrom v (1 + m) t := (runsFrom_of_nextDiffers hnext _).symm
      _ = runsFrom v 1 (List.replicate m v ++ t) := (runsFrom_replicate_append v 1 m t).symm
      _ = runs (List.replicate (1 + m) v ++ t) := by rw [Nat.add_comm 1 m]; rfl

/-! ## The detector's registers while a run is open (R56 to R62) -/

/-- The registers after the first `n` bytes of a run of value `v` (R62): its full blocks are out, its last part is counted. -/
structure Eu.HoldsRun (v : Byte) (n : Nat) (e : Eu) : Prop where
  runOpen : e.runOpen = true
  runVal : e.runVal = v
  runLen : e.runLen = BitVec.ofNat 32 (remainder n)
  split : e.split = decide (Config.maxRun < n)

/-- A run has just begun. -/
theorem Eu.holdsRun_one {e : Eu} {b : Byte} (ho : e.runOpen = true) (hv : e.runVal = b) (hl : e.runLen = 1)
    (hs : e.split = false) : e.HoldsRun b 1 :=
  ⟨ho, hv, hl.trans (by rw [remainder_of_le (by decide)]; rfl), hs⟩

theorem Eu.HoldsRun.runLen_toNat {v : Byte} {n : Nat} {e : Eu} (h : e.HoldsRun v n) : e.runLen.toNat = remainder n := by
  rw [h.runLen, toNat_ofNat_of_le (remainder_le n)]

/-- The full blocks so far and the emission of the open run are its whole segment. -/
theorem Eu.HoldsRun.emission {v : Byte} {n : Nat} {e : Eu} (h : e.HoldsRun v n) :
    fullBlockBytes v n ++ emitRun e.runVal e.runLen e.split = seg v n := by
  rw [seg_eq, h.runVal, h.runLen, h.split]

/-- A byte of the same value is counted, by RD.EXTEND or RD.CHUNK (R58, R59). -/
theorem Eu.HoldsRun.rdByte_same {v : Byte} {n : Nat} {e : Eu} (h : e.HoldsRun v n) :
    (e.rdByte v).1.HoldsRun v (n + 1) ∧ fullBlockBytes v n ++ (e.rdByte v).2 = fullBlockBytes v (n + 1) := by
  have hlen := h.runLen_toNat
  obtain hlt | heq := (remainder_le n).lt_or_eq
  · obtain ⟨hq, hr, hs⟩ := split_succ_of_lt hlt
    rw [Eu.rdByte_extend h.runOpen h.runVal.symm (hlen.trans_lt hlt)]
    refine ⟨⟨h.runOpen, h.runVal, ?_, h.split.trans (decide_eq_decide.mpr hs.symm)⟩, ?_⟩
    · rw [hr, BitVec.ofNat_add, ← h.runLen]
      rfl
    · rw [fullBlockBytes, fullBlockBytes, hq]
      exact List.append_nil _
  · obtain ⟨hq, hr, hs⟩ := split_succ_of_eq heq
    rw [Eu.rdByte_chunk h.runOpen h.runVal.symm (hlen.trans heq)]
    refine ⟨⟨h.runOpen, h.runVal, ?_, (decide_eq_true hs).symm⟩, ?_⟩
    · rw [hr]
      rfl
    · rw [fullBlockBytes, fullBlockBytes, hq, List.replicate_succ', List.flatten_append, ← h.runVal]
      rfl

/-- A byte of another value emits the open run's last part and opens the next run (R60). -/
theorem Eu.HoldsRun.rdByte_other {v b : Byte} {n : Nat} {e : Eu} (h : e.HoldsRun v n) (hb : b ≠ v) :
    (e.rdByte b).1.HoldsRun b 1 ∧ fullBlockBytes v n ++ (e.rdByte b).2 = seg v n := by
  rw [Eu.rdByte_break h.runOpen (h.runVal ▸ hb)]
  exact ⟨Eu.holdsRun_one h.runOpen rfl rfl rfl, h.emission⟩

/-- The end of input emits the open run's last part (R61). -/
theorem Eu.HoldsRun.rdFlush {v : Byte} {n : Nat} {e : Eu} (h : e.HoldsRun v n) :
    fullBlockBytes v n ++ e.rdFlush.2 = seg v n := by
  rw [Eu.rdFlush, if_pos h.runOpen]
  exact h.emission

/-- The encoding of a list of runs. -/
def encodeRuns (l : List (Byte × Nat)) : List Byte := (l.map fun r => seg r.1 r.2).flatten

theorem refEncode_eq (x : List Byte) : refEncode x = encodeRuns (runs x) := rfl

theorem encodeRuns_cons (v : Byte) (n : Nat) (l : List (Byte × Nat)) :
    encodeRuns ((v, n) :: l) = seg v n ++ encodeRuns l := rfl

/-- With `n` bytes of a run behind it, the detector completes that run and encodes the rest. -/
theorem Eu.HoldsRun.rdFeed {v : Byte} {n : Nat} {e : Eu} (h : e.HoldsRun v n) (t : List Byte) :
    fullBlockBytes v n ++ e.rdFeed t = encodeRuns (runsFrom v n t) := by
  induction t generalizing v n e with
  | nil => exact h.rdFlush.trans (List.append_nil _).symm
  | cons b t ih =>
    rw [Eu.rdFeed, ← List.append_assoc]
    by_cases hb : b = v
    · subst hb
      obtain ⟨hnext, hout⟩ := h.rdByte_same
      rw [hout, ih hnext, runsFrom_cons_same]
    · obtain ⟨hnext, hout⟩ := h.rdByte_other hb
      have hrest : (e.rdByte b).1.rdFeed t = encodeRuns (runs (b :: t)) := ih hnext
      rw [hout, hrest, runsFrom_cons_other hb, encodeRuns_cons]

/-! ## The detector's operations as rows (R55 to R61) -/

/-- An operation that asks for a condition completes under it and is refused otherwise. -/
theorem withEu_guarded {k : Nat} {s : State} {e : Eu} (he : s.eu? k = some e) (p : Eu → Prop) [DecidablePred p]
    (f : Eu → Eu) :
    withEu k s (fun e => if p e then .next (f e) else .refused .notSelected) =
      if p e then .next (s.setEu k (f e)) else .refused .notSelected := by
  split_ifs with hp
  · exact withEu_of_next he (if_pos hp)
  · exact withEu_of_refused he (if_neg hp)

theorem exists_ite_eq_next {p : Prop} [Decidable p] {s : State} :
    (∃ t, (if p then .next s else .refused .notSelected : Outcome State) = .next t) ↔ p := by
  split_ifs with hp <;> simp [hp]

section
variable {k : Nat} {s : State} {e : Eu}

theorem exec_rdOpen (he : s.eu? k = some e) (b : Byte) : exec (.rdOpen k b) s =
    if e.selectsOpen then .next (s.setEu k (Eu.keepReturned (e.rdOpen b))) else .refused .notSelected :=
  withEu_guarded he Eu.selectsOpen _

theorem exec_rdExtend (he : s.eu? k = some e) (b : Byte) : exec (.rdExtend k b) s =
    if e.selectsExtend b then .next (s.setEu k (Eu.keepReturned e.rdExtend)) else .refused .notSelected :=
  withEu_guarded he (Eu.selectsExtend b) _

theorem exec_rdChunk (he : s.eu? k = some e) (b : Byte) : exec (.rdChunk k b) s =
    if e.selectsChunk b then .next (s.setEu k (Eu.keepReturned e.rdChunk)) else .refused .notSelected :=
  withEu_guarded he (Eu.selectsChunk b) _

theorem exec_rdBreak (he : s.eu? k = some e) (b : Byte) : exec (.rdBreak k b) s =
    if e.selectsBreak b then .next (s.setEu k (Eu.keepReturned (e.rdBreak b))) else .refused .notSelected :=
  withEu_guarded he (Eu.selectsBreak b) _

theorem exec_rdFlush (he : s.eu? k = some e) :
    exec (.rdFlush k) s = .next (s.setEu k (Eu.keepReturned e.rdFlush)) :=
  withEu_of_next (f := fun e => .next (Eu.keepReturned e.rdFlush)) he rfl

theorem exec_fmt (he : s.eu? k = some e) (n : Word32) (v : Byte) :
    exec (.fmt k n v) s = .next (s.setEu k (Eu.keepReturned (e, fmt n v))) :=
  withEu_of_next (f := fun e => .next (Eu.keepReturned (e, fmt n v))) he rfl

end

/-- The conditions of R56 cover every byte. -/
theorem Eu.selects_cases (b : Byte) (e : Eu) :
    e.selectsOpen ∨ e.selectsExtend b ∨ e.selectsChunk b ∨ e.selectsBreak b := by
  cases ho : e.runOpen with
  | false => exact .inl ho
  | true =>
    by_cases hb : b = e.runVal
    · obtain hlt | heq := (le_maxRun e.runLen).lt_or_eq
      · exact .inr (.inl ⟨ho, hb, lt_maxRunWord.mpr hlt⟩)
      · exact .inr (.inr (.inl ⟨ho, hb, eq_maxRunWord.mpr heq⟩))
    · exact .inr (.inr (.inr ⟨ho, hb⟩))

/-! ## The statements -/

/-- Settles O10: the first byte opens a run, and from there the registers hold the run being read. -/
theorem runDetectorComputesEncode : Obligations.RunDetectorComputesEncode := by
  intro x
  cases x with
  | nil => rfl
  | cons b t =>
    have hopen : (Eu.reset.rdByte b).1.HoldsRun b 1 := Eu.holdsRun_one rfl rfl rfl rfl
    calc Eu.reset.rdFeed (b :: t) = (Eu.reset.rdByte b).1.rdFeed t := rfl
      _ = fullBlockBytes b 1 ++ (Eu.reset.rdByte b).1.rdFeed t := by
        rw [fullBlockBytes_of_le b (by decide), List.nil_append]
      _ = encodeRuns (runs (b :: t)) := hopen.rdFeed t
      _ = refEncode (b :: t) := (refEncode_eq (b :: t)).symm

/-- Settles O6: `runs x` meets the conditions of R51, and by induction on a list that meets them it is `runs x`. -/
theorem runsAreMaximalAndUnique : Obligations.RunsAreMaximalAndUnique := by
  refine ⟨rfl, fun x l => ⟨?_, fun ⟨hcov, hlen, hmax⟩ => IsRunsOf.eq_runs ⟨hcov, hlen, hmax⟩⟩⟩
  rintro rfl
  obtain ⟨hcov, hlen, hmax⟩ := isRunsOf_runs x
  exact ⟨hcov, hlen, hmax⟩

/-- Settles O8, from the shape of a segment and the bounds of its quotient and remainder. -/
theorem overflowSplit : Obligations.OverflowSplit := by
  intro v L hL
  refine ⟨fullBlocks L, remainder L, one_le_fullBlocks hL, one_le_remainder (Nat.one_le_of_lt hL), remainder_le L,
    fullBlocks_mul_add_remainder L, rfl, ?_, toNat_ofNat_of_le (remainder_le L)⟩
  rw [seg_eq, decide_eq_true hL, emitRun_block (.inl rfl)]
  rfl

/-- Settles O9: the last part is literals only where the whole run is. -/
theorem segmentLength : Obligations.SegmentLength := by
  intro v L _
  refine ⟨fun ⟨hv, hlt⟩ => ?_, fun h => ?_⟩
  · have hle : L ≤ Config.maxRun := hlt.le.trans (by decide)
    have hL := toNat_ofNat_of_le hle
    rw [seg, if_pos hle, emitRun_literals (hL.trans_lt hlt) hv, hL]
  · have hblock : decide (Config.maxRun < L) = true ∨ Config.threshold ≤ (BitVec.ofNat 32 (remainder L)).toNat ∨
        v = Config.sentinel := by
      obtain hgt | hle := Nat.lt_or_ge Config.maxRun L
      · exact .inl (decide_eq_true hgt)
      · rw [remainder_of_le hle, toNat_ofNat_of_le hle]
        exact .inr (or_iff_not_imp_right.mpr fun hv => Nat.le_of_not_lt fun hlt => h ⟨hv, hlt⟩)
    rw [seg_eq, emitRun_block hblock, List.length_append, fullBlockBytes_length, fmt_length]
    rfl

/-- Settles O31: each row's guard is its condition, and of the conditions exactly one holds. -/
theorem runDetectorSelectsOne : Obligations.RunDetectorSelectsOne := by
  intro k b s e he
  rw [exec_rdOpen he, exec_rdExtend he, exec_rdChunk he, exec_rdBreak he, ← lt_maxRunWord, ← eq_maxRunWord]
  refine ⟨exists_ite_eq_next, exists_ite_eq_next, exists_ite_eq_next, exists_ite_eq_next, ⟨_, exec_rdFlush he⟩, ?_⟩
  obtain h | h | h | h := e.selects_cases b
  · exact ⟨.rdOpen k b, by simp, ⟨_, (exec_rdOpen he b).trans (if_pos h)⟩,
      by simp [exec_rdExtend he, exec_rdChunk he, exec_rdBreak he, h]⟩
  · exact ⟨.rdExtend k b, by simp, ⟨_, (exec_rdExtend he b).trans (if_pos h)⟩,
      by simp [exec_rdOpen he, exec_rdChunk he, exec_rdBreak he, h, BitVec.ne_of_lt h.2.2]⟩
  · exact ⟨.rdChunk k b, by simp, ⟨_, (exec_rdChunk he b).trans (if_pos h)⟩,
      by simp [exec_rdOpen he, exec_rdExtend he, exec_rdBreak he, h]⟩
  · exact ⟨.rdBreak k b, by simp, ⟨_, (exec_rdBreak he b).trans (if_pos h)⟩,
      by simp [exec_rdOpen he, exec_rdExtend he, exec_rdChunk he, h]⟩

/-- Settles O7, by the two cases of the decision. -/
theorem emissionDecision : Obligations.EmissionDecision := by
  intro v L s _ _
  refine ⟨emitRun_block, ?_⟩
  rintro ⟨rfl, hL, hv⟩
  exact emitRun_literals hL hv

/-- Settles O25: the row's guard is met. -/
theorem rdOpenResult : Obligations.RdOpenResult :=
  fun _ b _ _ he ho => (exec_rdOpen he b).trans (if_pos ho)

/-- Settles O26: the row's guard is met, and below MAX_RUN the 32-bit count does not wrap. -/
theorem rdExtendResult : Obligations.RdExtendResult :=
  fun _ b _ _ he ho hb hl => ⟨(exec_rdExtend he b).trans (if_pos ⟨ho, hb, lt_maxRunWord.mpr hl⟩),
    BitVec.toNat_add_of_lt (Nat.succ_lt_succ hl)⟩

/-- Settles O27: the row's guard is met, and the bytes of MAX_RUN are 0xFF. -/
theorem rdChunkResult : Obligations.RdChunkResult :=
  fun _ b _ _ he ho hb hl => (exec_rdChunk he b).trans (if_pos ⟨ho, hb, eq_maxRunWord.mpr hl⟩)

/-- Settles O28: the row's guard is met. -/
theorem rdBreakResult : Obligations.RdBreakResult :=
  fun _ b _ _ he ho hb => (exec_rdBreak he b).trans (if_pos ⟨ho, hb⟩)

/-- Settles O29, by whether a run is open. -/
theorem rdFlushResult : Obligations.RdFlushResult := by
  intro k s e he
  rw [exec_rdFlush he, Eu.keepReturned, Eu.rdFlush]
  exact ⟨fun ho => by rw [if_pos ho], fun ho => by rw [if_neg (ne_true_of_eq_false ho)]⟩

/-- Settles O30: the formatter's bytes are the RUN unit's encoding. -/
theorem fmtResult : Obligations.FmtResult :=
  fun k n v _ _ he => ⟨exec_fmt he n v, encode_run k n v, fmt_length n v⟩

end Sys2Proof.Machine
end

section
/-! The encoder (41_encoder.md). The layer first: the units of an encoded stream, what follows what in it and how long it is; then the
Encoder Unit's steps, a whole operation of each unit, and the machine's step with its progress. The statements stand after the
part they need. -/

namespace Sys2Proof.Machine

/-! ## The units of an encoded stream (R41, R54, R69) -/

/-- The bytes `bs` are the units `us`, whatever follows them in the stream. -/
def ParsesTo (k : Nat) (bs : List Byte) (us : List Instr) : Prop :=
  ∀ y, parseUnits k (bs ++ y) = (parseUnits k y).map (us ++ ·)

theorem ParsesTo.nil (k : Nat) : ParsesTo k [] [] := fun y => by simp

theorem ParsesTo.append {k : Nat} {bs bs' : List Byte} {us us' : List Instr} (h : ParsesTo k bs us)
    (h' : ParsesTo k bs' us') : ParsesTo k (bs ++ bs') (us ++ us') := fun y => by
  rw [List.append_assoc, h, h', Option.map_map]
  simp [Function.comp_def]

theorem ParsesTo.replicate {k : Nat} {bs : List Byte} {us : List Instr} (h : ParsesTo k bs us) (q : Nat) :
    ParsesTo k (List.replicate q bs).flatten (List.replicate q us).flatten := by
  induction q with
  | zero => exact .nil k
  | succ q ih => exact h.append ih

theorem parsesTo_fmt (k : Nat) (n : Word32) (v : Byte) : ParsesTo k (fmt n v) [.run k n v] := fun y =>
  (parseUnits_run k _ _ _ _ v y).trans (by rw [be32_extract]; rfl)

theorem parsesTo_literal (k : Nat) {v : Byte} (hv : v ≠ Config.sentinel) : ParsesTo k [v] [.lit k v] :=
  parseUnits_lit k hv

/-- A run is emitted as literals (R54). -/
abbrev IsLiteralRun (v : Byte) (n : Nat) : Prop := v ≠ Config.sentinel ∧ n < Config.threshold

/-- A run that is not emitted as literals is run-blocks alone (R54). -/
theorem seg_blocks {v : Byte} {n : Nat} (h : ¬IsLiteralRun v n) :
    seg v n = fullBlockBytes v n ++ fmt (BitVec.ofNat 32 (remainder n)) v := by
  rw [seg_eq, emitRun_block]
  obtain hgt | hle := Nat.lt_or_ge Config.maxRun n
  · exact .inl (decide_eq_true hgt)
  · rw [remainder_of_le hle, toNat_ofNat_of_le hle]
    exact .inr (or_iff_not_imp_right.mpr fun hv => Nat.le_of_not_lt fun hlt => h ⟨hv, hlt⟩)

/-- The units a whole run is emitted as: literals, or full run-blocks and then a run-block for the last part (R54). -/
def segUnits (k : Nat) (v : Byte) (n : Nat) : List Instr :=
  if IsLiteralRun v n then List.replicate n (.lit k v)
  else List.replicate (fullBlocks n) (.run k Config.maxRunWord v) ++ [.run k (BitVec.ofNat 32 (remainder n)) v]

theorem segUnits_literals (k : Nat) {v : Byte} {n : Nat} (h : IsLiteralRun v n) :
    segUnits k v n = List.replicate n (.lit k v) := if_pos h

theorem segUnits_blocks (k : Nat) {v : Byte} {n : Nat} (h : ¬IsLiteralRun v n) :
    segUnits k v n =
      List.replicate (fullBlocks n) (.run k Config.maxRunWord v) ++ [.run k (BitVec.ofNat 32 (remainder n)) v] :=
  if_neg h

theorem parsesTo_seg (k : Nat) (v : Byte) {n : Nat} (hn : 1 ≤ n) : ParsesTo k (seg v n) (segUnits k v n) := by
  obtain ⟨literals, -⟩ := segmentLength v n hn
  by_cases h : IsLiteralRun v n
  · have hparse := (parsesTo_literal k h.1).replicate n
    rwa [List.flatten_replicate_singleton, List.flatten_replicate_singleton, ← literals h, ← segUnits_literals k h] at hparse
  · rw [seg_blocks h, segUnits_blocks k h, ← List.flatten_replicate_singleton]
    exact ((parsesTo_fmt k _ v).replicate _).append (parsesTo_fmt k _ v)

/-- The units of an encoded list of runs. -/
def encodedUnits (k : Nat) (l : List (Byte × Nat)) : List Instr := (l.map fun r => segUnits k r.1 r.2).flatten

theorem encodedUnits_cons (k : Nat) (v : Byte) (n : Nat) (l : List (Byte × Nat)) :
    encodedUnits k ((v, n) :: l) = segUnits k v n ++ encodedUnits k l := rfl

theorem IsRunsOf.parsesTo {x : List Byte} {l : List (Byte × Nat)} (k : Nat) (h : IsRunsOf x l) :
    ParsesTo k (encodeRuns l) (encodedUnits k l) := by
  induction l generalizing x with
  | nil => exact .nil k
  | cons r l ih =>
    obtain ⟨hn, -, t, -, ht⟩ := isRunsOf_cons.mp h
    exact (parsesTo_seg k r.1 hn).append (ih ht)

theorem parseUnits_refEncode (k : Nat) (x : List Byte) :
    parseUnits k (refEncode x) = some (encodedUnits k (runs x)) := by
  have h := (isRunsOf_runs x).parsesTo k []
  rwa [List.append_nil, parseUnits_nil, Option.map_some, List.append_nil] at h

/-- Every unit of a run's segment is a literal of it or a run-block of it of length at least 1 (R54). -/
theorem mem_segUnits {k : Nat} {v : Byte} {n : Nat} {u : Instr} (hn : 1 ≤ n) (h : u ∈ segUnits k v n) :
    (u = .lit k v ∧ v ≠ Config.sentinel) ∨ ∃ m, u = .run k m v ∧ 1 ≤ m.toNat := by
  by_cases hl : IsLiteralRun v n
  · rw [segUnits_literals k hl] at h
    exact .inl ⟨List.eq_of_mem_replicate h, hl.1⟩
  · rw [segUnits_blocks k hl, List.mem_append, List.mem_singleton] at h
    obtain h | rfl := h
    · exact .inr ⟨_, List.eq_of_mem_replicate h, by decide⟩
    · exact .inr ⟨_, rfl, (toNat_ofNat_of_le (remainder_le n)).symm ▸ one_le_remainder hn⟩

theorem mem_encodedUnits {k : Nat} {x : List Byte} {u : Instr} (h : u ∈ encodedUnits k (runs x)) :
    ∃ v, (u = .lit k v ∧ v ≠ Config.sentinel) ∨ ∃ m, u = .run k m v ∧ 1 ≤ m.toNat := by
  obtain ⟨us, hus, hu⟩ := List.mem_flatten.mp h
  obtain ⟨r, hr, rfl⟩ := List.mem_map.mp hus
  exact ⟨r.1, mem_segUnits ((isRunsOf_runs x).nonempty r hr) hu⟩

/-! ## What an encoded stream decodes to (R72) -/

/-- A run's units stand for the run, its parts added up again (R53). -/
theorem unitOutput_segUnits (k : Nat) (v : Byte) (n : Nat) :
    ((segUnits k v n).map unitOutput).flatten = List.replicate n v := by
  by_cases hl : IsLiteralRun v n
  · rw [segUnits_literals k hl, List.map_replicate]
    exact List.flatten_replicate_singleton
  · have hfull : unitOutput (.run k Config.maxRunWord v) = List.replicate Config.maxRun v := rfl
    have hlast : unitOutput (.run k (BitVec.ofNat 32 (remainder n)) v) = List.replicate (remainder n) v := by
      rw [unitOutput, toNat_ofNat_of_le (remainder_le n)]
    rw [segUnits_blocks k hl, List.map_append, List.map_replicate, List.map_singleton, hfull, hlast,
      List.flatten_append, List.flatten_replicate_replicate, List.flatten_singleton, List.replicate_append_replicate,
      ← fullBlocks_mul_add_remainder]

theorem unitOutput_encodedUnits (k : Nat) (l : List (Byte × Nat)) :
    ((encodedUnits k l).map unitOutput).flatten = (l.map fun r => List.replicate r.2 r.1).flatten := by
  induction l with
  | nil => rfl
  | cons r l ih =>
    rw [encodedUnits_cons, List.map_append, List.flatten_append, unitOutput_segUnits, ih]
    rfl

theorem refDecode_refEncode (x : List Byte) : refDecode (refEncode x) = .ok x :=
  (refDecode_eq_ok_iff 0 _ x).mpr
    ⟨_, parseUnits_refEncode 0 x, ((unitOutput_encodedUnits 0 _).trans (isRunsOf_runs x).covers).symm⟩

/-! ## Which units follow each other in a canonical stream (R70) -/

/-- The value of a unit of a parsed stream; a parse has no other rows. -/
def unitValue : Instr → Byte
  | .lit _ v => v
  | .run _ _ v => v
  | _ => 0

theorem unitValue_of_mem_segUnits {k : Nat} {v : Byte} {n : Nat} {u : Instr} (hn : 1 ≤ n) (h : u ∈ segUnits k v n) :
    unitValue u = v := by
  obtain ⟨rfl, -⟩ | ⟨m, rfl, -⟩ := mem_segUnits hn h <;> rfl

/-- A unit may begin a run's segment: a run-block does so for a sentinel run or from THRESHOLD on (R52). -/
def BeginsRun (k : Nat) (u : Instr) : Prop :=
  ∀ n v, u = .run k n v → v ≠ Config.sentinel → Config.threshold ≤ n.toNat

/-- How two neighbours of an encoded stream are related: a run of another value begins, or a full run-block is followed by the next
part of its run, or a literal by its like. -/
inductive MayPrecede (k : Nat) : Instr → Instr → Prop where
  | newRun {a b : Instr} (hv : unitValue a ≠ unitValue b) (hb : BeginsRun k b) : MayPrecede k a b
  | nextPart (n : Word32) (v : Byte) : MayPrecede k (.run k Config.maxRunWord v) (.run k n v)
  | literal (v : Byte) : MayPrecede k (.lit k v) (.lit k v)

theorem isChain_segUnits (k : Nat) (v : Byte) (n : Nat) : (segUnits k v n).IsChain (MayPrecede k) := by
  by_cases hl : IsLiteralRun v n
  · rw [segUnits_literals k hl]
    exact List.isChain_replicate_of_rel n (.literal v)
  · rw [segUnits_blocks k hl]
    refine List.isChain_append.mpr ⟨List.isChain_replicate_of_rel _ (.nextPart _ v), .singleton _, fun a ha b hb => ?_⟩
    obtain rfl := List.eq_of_mem_replicate (List.mem_of_mem_getLast? ha)
    obtain rfl := Option.mem_some.mp hb
    exact .nextPart _ v

/-- The first unit of a run's segment has the run's value, and if it is a run-block it stands for all of the run or for MAX_RUN. -/
theorem head_segUnits {k : Nat} {v : Byte} {n : Nat} (hn : 1 ≤ n) :
    ∃ u us, segUnits k v n = u :: us ∧ unitValue u = v ∧ BeginsRun k u := by
  by_cases hl : IsLiteralRun v n
  · obtain ⟨m, rfl⟩ := Nat.exists_eq_add_of_le' hn
    exact ⟨_, _, (segUnits_literals k hl).trans List.replicate_succ, rfl, nofun⟩
  · rw [segUnits_blocks k hl]
    cases hq : fullBlocks n with
    | zero =>
      refine ⟨_, [], rfl, rfl, fun m w hu hw => ?_⟩
      cases hu
      have hrem : remainder n = n := by
        have := fullBlocks_mul_add_remainder n
        rw [hq] at this
        omega
      rw [toNat_ofNat_of_le (remainder_le n), hrem]
      exact Nat.le_of_not_lt fun hlt => hl ⟨hw, hlt⟩
    | succ q =>
      refine ⟨_, _, rfl, rfl, fun m w hu _ => ?_⟩
      cases hu
      decide

theorem head_encodedUnits {k : Nat} {x : List Byte} {l : List (Byte × Nat)} (h : IsRunsOf x l) {u : Instr}
    (hu : u ∈ (encodedUnits k l).head?) : (∃ r ∈ l.head?, unitValue u = r.1) ∧ BeginsRun k u := by
  cases l with
  | nil => cases hu
  | cons r l =>
    obtain ⟨hn, -⟩ := isRunsOf_cons.mp h
    obtain ⟨u', us, hus, hval, hbegins⟩ := head_segUnits (k := k) (v := r.1) hn
    rw [encodedUnits_cons, hus] at hu
    obtain rfl := Option.mem_some.mp hu
    exact ⟨⟨r, rfl, hval⟩, hbegins⟩

theorem NextDiffers.head_encodedUnits {k : Nat} {v : Byte} {x : List Byte} {l : List (Byte × Nat)}
    (hnext : NextDiffers v l) (h : IsRunsOf x l) {u : Instr} (hu : u ∈ (encodedUnits k l).head?) :
    v ≠ unitValue u ∧ BeginsRun k u := by
  obtain ⟨⟨r, hr, hval⟩, hbegins⟩ := Machine.head_encodedUnits h hu
  exact ⟨hval ▸ hnext r hr, hbegins⟩

theorem IsRunsOf.isChain_encodedUnits {x : List Byte} {l : List (Byte × Nat)} (k : Nat) (h : IsRunsOf x l) :
    (encodedUnits k l).IsChain (MayPrecede k) := by
  induction l generalizing x with
  | nil => exact .nil
  | cons r l ih =>
    obtain ⟨hn, hnext, t, -, ht⟩ := isRunsOf_cons.mp h
    refine List.isChain_append.mpr ⟨isChain_segUnits k r.1 r.2, ih ht, fun a ha b hb => ?_⟩
    obtain ⟨hval, hbegins⟩ := hnext.head_encodedUnits ht hb
    exact .newRun (unitValue_of_mem_segUnits hn (List.mem_of_mem_getLast? ha) ▸ hval) hbegins

theorem mayPrecede_of_getElem? {k i : Nat} {us : List Instr} {a b : Instr} (h : us.IsChain (MayPrecede k))
    (ha : us[i]? = some a) (hb : us[i + 1]? = some b) : MayPrecede k a b := by
  obtain ⟨hlt, rfl⟩ := List.getElem?_eq_some_iff.mp hb
  obtain ⟨-, rfl⟩ := List.getElem?_eq_some_iff.mp ha
  exact h.getElem i hlt

/-- A run-block below MAX_RUN is followed by another value alone. -/
theorem MayPrecede.value_ne_of_run {k : Nat} {n : Word32} {v : Byte} {u : Instr} (h : MayPrecede k (.run k n v) u)
    (hn : n.toNat < Config.maxRun) : v ≠ unitValue u := by
  cases h with
  | newRun hv => exact hv
  | nextPart => exact absurd hn (by decide)

/-- What precedes a run-block below THRESHOLD of no sentinel is a full run-block of its run. -/
theorem MayPrecede.eq_full_block {k : Nat} {n : Word32} {v : Byte} {u : Instr} (h : MayPrecede k u (.run k n v))
    (hv : v ≠ Config.sentinel) (hn : n.toNat < Config.threshold) : u = .run k Config.maxRunWord v := by
  cases h with
  | newRun _ hb => exact absurd hn (Nat.not_lt_of_le (hb n v rfl hv))
  | nextPart => rfl

/-- Literals and run-blocks of one value are never neighbours. -/
theorem not_mayPrecede_lit_run {k : Nat} {n : Word32} {v : Byte} : ¬MayPrecede k (.lit k v) (.run k n v) := by
  intro h
  cases h with
  | newRun hv => exact hv rfl

theorem not_mayPrecede_run_lit {k : Nat} {n : Word32} {v : Byte} : ¬MayPrecede k (.run k n v) (.lit k v) := by
  intro h
  cases h with
  | newRun hv => exact hv rfl

/-- A segment with a literal in it is fewer than THRESHOLD of them and nothing else (R54). -/
theorem segUnits_of_lit {k i n : Nat} {v w : Byte} (hn : 1 ≤ n) (h : (segUnits k w n)[i]? = some (.lit k v)) :
    w = v ∧ n < Config.threshold ∧ (segUnits k w n).length = n := by
  have hmem := List.mem_of_getElem? h
  refine ⟨(unitValue_of_mem_segUnits hn hmem).symm, ?_⟩
  by_cases hl : IsLiteralRun w n
  · exact ⟨hl.2, by rw [segUnits_literals k hl, List.length_replicate]⟩
  · rw [segUnits_blocks k hl, List.mem_append, List.mem_singleton] at hmem
    obtain h | h := hmem
    · cases List.eq_of_mem_replicate h
    · cases h

/-- Six equal literals in a row would reach beyond the run of the first of them, where another value follows. -/
theorem IsRunsOf.not_six_literals {x : List Byte} {l : List (Byte × Nat)} (k : Nat) (h : IsRunsOf x l) (v : Byte) :
    ∀ i, ¬∀ j < 6, (encodedUnits k l)[i + j]? = some (.lit k v) := by
  induction l generalizing x with
  | nil => exact fun i hall => nomatch hall 0 (by decide)
  | cons r l ih =>
    intro i hall
    obtain ⟨w, n⟩ := r
    obtain ⟨hn, hnext, t, -, ht⟩ := isRunsOf_cons.mp h
    rw [encodedUnits_cons] at hall
    obtain hlt | hge := Nat.lt_or_ge i (segUnits k w n).length
    · have hfirst := hall 0 (by decide)
      rw [Nat.add_zero, List.getElem?_append_left hlt] at hfirst
      obtain ⟨rfl, hsix, hlen⟩ := segUnits_of_lit hn hfirst
      have hbeyond := hall (n - i) ((Nat.sub_le _ _).trans_lt hsix)
      rw [Nat.add_sub_cancel' (hlen ▸ hlt).le, List.getElem?_append_right hlen.le, hlen, Nat.sub_self,
        ← List.head?_eq_getElem?] at hbeyond
      exact (hnext.head_encodedUnits ht hbeyond).1 rfl
    · refine ih ht (i - (segUnits k w n).length) fun j hj => ?_
      rw [← hall j hj, List.getElem?_append_right (hge.trans (Nat.le_add_right i j)), Nat.sub_add_comm hge]

/-- The conditions (a) to (f) of R70 on the units of a stream, the value in each of them a byte. -/
structure UnitConditions (k : Nat) (us : List Instr) : Prop where
  run_nonempty : ∀ n v, Instr.run k n v ∈ us → 1 ≤ n.toNat
  short_run_after_full : ∀ i n v, us[i]? = some (.run k n v) → v ≠ Config.sentinel → n.toNat < Config.threshold →
    ∃ j, i = j + 1 ∧ us[j]? = some (.run k Config.maxRunWord v)
  value_changes : ∀ i n v u, us[i]? = some (.run k n v) → n.toNat < Config.maxRun → us[i + 1]? = some u → v ≠ unitValue u
  lit_not_next_to_run : ∀ i v n, ¬(us[i]? = some (.lit k v) ∧ us[i + 1]? = some (.run k n v)) ∧
    ¬(us[i]? = some (.run k n v) ∧ us[i + 1]? = some (.lit k v))
  not_six_literals : ∀ i v, ¬∀ j < 6, us[i + j]? = some (.lit k v)
  lit_ne_sentinel : ∀ v, Instr.lit k v ∈ us → v ≠ Config.sentinel

/-- A canonical stream's units meet R70's conditions: the units of a run are literals or run-blocks of it, neighbours are of one
run or of two runs of different values, and six equal literals reach beyond their run. -/
theorem Canonical.unitConditions {k : Nat} {y : List Byte} {us : List Instr} (hy : Canonical y)
    (hus : parseUnits k y = some us) : UnitConditions k us := by
  obtain ⟨x, rfl⟩ := hy
  cases (parseUnits_refEncode k x).symm.trans hus
  have hruns := isRunsOf_runs x
  have hchain := hruns.isChain_encodedUnits k
  refine ⟨fun n v h => ?_, fun i n v hi hv hn => ?_, fun i n v u hi hn hu => ?_, fun i v n => ⟨?_, ?_⟩,
    fun i v => hruns.not_six_literals k v i, fun v h => ?_⟩
  · obtain ⟨w, ⟨hu, -⟩ | ⟨m, hu, hm⟩⟩ := mem_encodedUnits h <;> cases hu
    exact hm
  · cases i with
    | zero =>
      obtain ⟨-, hbegins⟩ := head_encodedUnits hruns (List.head?_eq_getElem?.trans hi)
      exact absurd hn (Nat.not_lt_of_le (hbegins n v rfl hv))
    | succ j =>
      have hj := List.getElem?_eq_getElem (Nat.lt_of_succ_lt (List.getElem?_eq_some_iff.mp hi).1)
      exact ⟨j, rfl, hj.trans (congrArg some ((mayPrecede_of_getElem? hchain hj hi).eq_full_block hv hn))⟩
  · exact (mayPrecede_of_getElem? hchain hi hu).value_ne_of_run hn
  · exact fun ⟨hl, hr⟩ => not_mayPrecede_lit_run (mayPrecede_of_getElem? hchain hl hr)
  · exact fun ⟨hr, hl⟩ => not_mayPrecede_run_lit (mayPrecede_of_getElem? hchain hr hl)
  · obtain ⟨w, ⟨hu, hw⟩ | ⟨m, hu, -⟩⟩ := mem_encodedUnits h <;> cases hu
    exact hw

/-! ## The length of an encoded stream (R71) -/

/-- How many bytes more than the input a run's segment may take: a sentinel run below THRESHOLD is a whole run-block (R71). -/
def segExcess (r : Byte × Nat) : Nat := if r.1 = 0x04 ∧ r.2 < 6 then 6 - r.2 else 0

theorem seg_length_le {v : Byte} {n : Nat} (hn : 1 ≤ n) : (seg v n).length ≤ n + segExcess (v, n) := by
  obtain ⟨literals, blocks⟩ := segmentLength v n hn
  by_cases h : v ≠ 0x04 ∧ n < 6
  · rw [literals h, List.length_replicate]
    exact Nat.le_add_right n _
  · rw [blocks h, segExcess, Config.maxRun]
    by_cases h6 : n < 6
    · have hv : v = 0x04 := of_not_not fun hv => h ⟨hv, h6⟩
      rw [if_pos ⟨hv, h6⟩]
      omega
    · omega

theorem add_segExcess_le {v : Byte} {n : Nat} (hn : 1 ≤ n) : n + segExcess (v, n) ≤ 6 * n := by
  rw [segExcess]
  split_ifs <;> omega

theorem refEncode_length (x : List Byte) : (refEncode x).length = ((runs x).map fun r => (seg r.1 r.2).length).sum := by
  rw [refEncode, List.length_flatten, List.map_map]
  rfl

/-- The runs' lengths add up to the input's. -/
theorem runs_length_sum (x : List Byte) : ((runs x).map Prod.snd).sum = x.length := by
  conv_rhs => rw [← (isRunsOf_runs x).covers]
  simp [List.length_flatten, Function.comp_def]

theorem length_add_segExcess (x : List Byte) :
    x.length + ((runs x).map segExcess).sum = ((runs x).map fun r => r.2 + segExcess r).sum := by
  rw [List.sum_map_add, runs_length_sum]

/-- A run's value is a byte of the input. -/
theorem mem_of_mem_runs {x : List Byte} {r : Byte × Nat} (h : r ∈ runs x) : r.1 ∈ x := by
  obtain ⟨hcov, hlen, -⟩ := isRunsOf_runs x
  rw [← hcov]
  refine List.mem_flatten.mpr ⟨_, List.mem_map_of_mem h, List.mem_replicate.mpr ⟨?_, rfl⟩⟩
  exact Nat.one_le_iff_ne_zero.mp (hlen r h)

theorem refEncode_length_le (x : List Byte) : (refEncode x).length ≤ x.length + ((runs x).map segExcess).sum := by
  rw [refEncode_length, length_add_segExcess]
  exact List.sum_le_sum fun r hr => seg_length_le ((isRunsOf_runs x).nonempty r hr)

/-! ## The statements about streams -/

/-- Refutes O12: its condition (b) takes the value `v` as a natural number, so the premise `v ≠ 0x04` holds of 260, whose byte is
the sentinel. One sentinel byte is encoded as a RUN of length 1 with nothing before it. With a byte for `v` the conditions hold
(`Canonical.unitConditions`). -/
theorem not_canonicalStreamConditions : ¬Obligations.CanonicalStreamConditions := by
  intro h
  have hcanonical : Canonical [0x04, 0, 0, 0, 1, 0x04] := ⟨[0x04], by decide⟩
  have hparse : parseUnits 0 [0x04, 0, 0, 0, 1, 0x04] = some [.run 0 1 0x04] := by decide
  obtain ⟨-, hshort, -⟩ := h 0 _ _ hcanonical hparse
  obtain ⟨j, hj, -⟩ := hshort 0 1 260 (by decide) (by decide) (by decide)
  exact absurd hj (Nat.succ_ne_zero j).symm

/-- Settles O16: the units of an encoded stream stand for the runs of the input, which cover it. -/
theorem roundTrip : Obligations.RoundTrip := refDecode_refEncode

/-- Settles O11, by the units of each run's segment. -/
theorem encodedStreamParses : Obligations.EncodedStreamParses := by
  intro k x
  refine ⟨_, parseUnits_refEncode k x, fun u hu => ?_⟩
  obtain ⟨v, ⟨rfl, hv⟩ | ⟨n, rfl, -⟩⟩ := mem_encodedUnits hu
  · refine ⟨Instr.wf_lit.mpr hv, fun w hw => ?_, .inl ⟨v, rfl⟩⟩
    cases hw
    exact hv
  · exact ⟨rfl, nofun, .inr ⟨n, v, rfl⟩⟩

/-- Settles O13, from the round trip. -/
theorem canonicalExactTest : Obligations.CanonicalExactTest := by
  intro y
  constructor
  · rintro ⟨x, rfl⟩
    exact ⟨x, refDecode_refEncode x, rfl⟩
  · rintro ⟨x, -, rfl⟩
    exact ⟨x, rfl⟩

/-- Settles O14: each bound holds run by run. -/
theorem outputLengthBounds : Obligations.OutputLengthBounds := by
  intro x
  refine ⟨refEncode_length x, fun hno => ?_, refEncode_length_le x, ?_⟩
  · have hzero : ((runs x).map segExcess).sum = 0 := by
      refine List.sum_eq_zero fun n hn => ?_
      obtain ⟨r, hr, rfl⟩ := List.mem_map.mp hn
      exact if_neg fun ⟨hv, _⟩ => hno (hv ▸ mem_of_mem_runs hr)
    have hle := refEncode_length_le x
    rwa [hzero, Nat.add_zero] at hle
  · change x.length + ((runs x).map segExcess).sum ≤ _
    rw [length_add_segExcess, ← runs_length_sum, ← List.sum_map_mul_left]
    exact List.sum_le_sum fun r hr => add_segExcess_le ((isRunsOf_runs x).nonempty r hr)

/-! ## The Encoder Unit's two steps (R64 to R66) -/

/-- What the byte step on `b` leaves in the unit (R65). -/
def Eu.afterByte (b : Byte) (e : Eu) : Eu := ((e.rdByte b).1.outAppend (e.rdByte b).2).advance 1

/-- What the finish step leaves in the unit (R66). -/
def Eu.afterFinish (e : Eu) : Eu := { e.rdFlush.1.outAppend e.rdFlush.2 with status := .done }

@[simp] theorem Eu.afterByte_status (b : Byte) (e : Eu) : (e.afterByte b).status = e.status := Eu.rdByte_status b e
@[simp] theorem Eu.afterByte_inBuf (b : Byte) (e : Eu) : (e.afterByte b).inBuf = e.inBuf := Eu.rdByte_inBuf b e
@[simp] theorem Eu.afterByte_inLen (b : Byte) (e : Eu) : (e.afterByte b).inLen = e.inLen := Eu.rdByte_inLen b e
@[simp] theorem Eu.afterByte_inOff (b : Byte) (e : Eu) : (e.afterByte b).inOff = e.inOff + 1 :=
  congrArg (· + 1) (Eu.rdByte_inOff b e)
@[simp] theorem Eu.afterByte_outBuf (b : Byte) (e : Eu) : (e.afterByte b).outBuf = e.outBuf ++ (e.rdByte b).2 :=
  congrArg (· ++ _) (Eu.rdByte_outBuf b e)
@[simp] theorem Eu.afterByte_ret (b : Byte) (e : Eu) : (e.afterByte b).ret = e.ret := Eu.rdByte_ret b e

section
variable {k : Nat} {s : State} {e : Eu}

theorem exec_euStep {b : Byte} (he : s.eu? k = some e) (hs : e.status = .busy) (hi : e.inOff < e.inLen)
    (hb : inRead e.inBuf e.inOff = some b) : exec (.euStep k) s = .next (s.setEu k (e.afterByte b)) :=
  withEu_of_next he (Eu.onByte_eq_next.mpr ⟨hs, hi, b, hb, rfl⟩)

theorem exec_euStep_refused (he : s.eu? k = some e) (h : ¬(e.status = .busy ∧ e.inOff < e.inLen)) :
    exec (.euStep k) s = .refused .notSelected :=
  withEu_of_refused he (if_neg h)

theorem exec_euFinish (he : s.eu? k = some e) (hs : e.status = .busy) (hi : e.inOff = e.inLen) :
    exec (.euFinish k) s = .next (s.setEu k e.afterFinish) :=
  withEu_of_next he (if_pos ⟨hs, hi⟩)

theorem exec_euFinish_refused (he : s.eu? k = some e) (h : ¬(e.status = .busy ∧ e.inOff = e.inLen)) :
    exec (.euFinish k) s = .refused .notSelected :=
  withEu_of_refused he (if_neg h)

theorem enabledStep_eu (he : s.eu? k = some e) : enabledStep { inst := k, kind := .eu } s = e.enabled k := by
  rw [enabledStep, he]
  rfl

end

theorem Eu.enabled_byte {e : Eu} (k : Nat) (hs : e.status = .busy) (hi : e.inOff < e.inLen) :
    e.enabled k = some (.euStep k) := (if_pos hs).trans (if_pos hi)

theorem Eu.enabled_finish {e : Eu} (k : Nat) (hs : e.status = .busy) (hi : e.inOff = e.inLen) :
    e.enabled k = some (.euFinish k) :=
  (if_pos hs).trans ((if_neg (Nat.not_lt_of_le hi.ge)).trans (if_pos hi))

theorem Eu.enabled_quiet {e : Eu} (k : Nat) (hs : e.status ≠ .busy) : e.enabled k = none := if_neg hs

/-- The program counter points at a byte of the input or stands at its end (R17, R29). -/
theorem InputInv.byte_or_end {w i n : Nat} {buf : List Byte} (h : InputInv w buf n i) :
    (i < n ∧ ∃ b, inRead buf i = some b) ∨ i = n := by
  obtain ⟨hlen, hoff, -⟩ := h
  obtain hlt | heq := hoff.lt_or_eq
  · exact .inl ⟨hlt, _, inRead_of_lt (hlen ▸ hlt)⟩
  · exact .inr heq

/-- An admitted ENCODE (R63). -/
theorem exec_encode {k : Nat} {x : List Byte} {s : State} {e : Eu} (he : s.eu? k = some e) (hs : e.status ≠ .busy)
    (hx : x.length ≤ maxLength s.offsetWidth) (hy : (refEncode x).length ≤ maxLength s.offsetWidth) :
    exec (.encode k x) s = .next (s.setEu k (Eu.start x)) :=
  withEu_of_next he (by rw [startRefusal_eq_none.mpr ⟨hs, hx, hy⟩])

theorem exec_encode_refused {k : Nat} {x : List Byte} {s : State} {e : Eu} (he : s.eu? k = some e)
    (h : ¬(e.status ≠ .busy ∧ x.length ≤ maxLength s.offsetWidth ∧ (refEncode x).length ≤ maxLength s.offsetWidth)) :
    ∃ r, exec (.encode k x) s = .refused r := by
  obtain ⟨r, hr⟩ := Option.ne_none_iff_exists'.mp (mt startRefusal_eq_none.mp h)
  exact ⟨r, withEu_of_refused he (by rw [hr])⟩

/-! ## The statements about the Encoder Unit's instructions -/

/-- Settles O21, by the two cases of the admission. -/
theorem encodeStarts : Obligations.EncodeStarts := by
  intro k x s e he
  refine ⟨fun hs hx hy => ⟨[], exec_encode he hs hx hy⟩, fun h => exec_encode_refused he fun ⟨hs, hx, hy⟩ => ?_⟩
  obtain hbusy | hlong | hlong := h
  · exact hs hbusy
  · exact Nat.not_lt_of_le hx hlong
  · exact Nat.not_lt_of_le hy hlong

/-- Settles O32, by the operation that the table of R56 selects. -/
theorem euStepResult : Obligations.EuStepResult := by
  intro k b s e he hs hi hb
  rw [exec_euStep he hs hi hb, Eu.afterByte]
  refine ⟨fun ho => ?_, fun ho hv hl => ?_, fun ho hv hl => ?_, fun ho hv => ?_⟩
  · rw [Eu.rdByte_open ho]
    simp [Eu.rdOpen, Eu.outAppend, Eu.advance]
  · rw [Eu.rdByte_extend ho hv hl]
    simp [Eu.rdExtend, Eu.outAppend, Eu.advance]
  · rw [Eu.rdByte_chunk ho hv hl, hv]
    rfl
  · rw [Eu.rdByte_break ho hv]
    rfl

/-- Settles O33, by whether a run is open. -/
theorem euFinishResult : Obligations.EuFinishResult := by
  intro k s e he hs hi
  rw [exec_euFinish he hs hi, Eu.afterFinish, Eu.rdFlush]
  refine ⟨fun ho => ?_, fun ho => ?_⟩
  · rw [if_pos ho]
    rfl
  · simp [ho, Eu.outAppend]

/-- Settles O34: the two steps' guards are complementary under the unit's invariant. -/
theorem euEnabledStep : Obligations.EuEnabledStep := by
  rintro k s e he ⟨hin, -⟩
  rw [enabledStep_eu he]
  refine ⟨fun hs hlt => ?_, fun hs hge => ?_, fun hs => ?_⟩
  · obtain ⟨-, b, hb⟩ := hin.byte_or_end.resolve_right hlt.ne
    exact ⟨e.enabled_byte k hs hlt, ⟨_, exec_euStep he hs hlt hb⟩, exec_euFinish_refused he fun ⟨_, heq⟩ => hlt.ne heq⟩
  · have heq : e.inOff = e.inLen := hin.byte_or_end.resolve_left fun ⟨hlt, _⟩ => hge hlt
    exact ⟨e.enabled_finish k hs heq, ⟨_, exec_euFinish he hs heq⟩, exec_euStep_refused he fun ⟨_, hlt⟩ => hge hlt⟩
  · exact ⟨e.enabled_quiet k hs, exec_euStep_refused he fun ⟨hbusy, _⟩ => hs hbusy,
      exec_euFinish_refused he fun ⟨hbusy, _⟩ => hs hbusy⟩

/-! ## Turns in a row -/

theorem unitTurns_succ {u : UnitId} {s t : State} (n : Nat) (h : perform (.turn u) s = .next t) :
    unitTurns u (n + 1) s = unitTurns u n t := by
  rw [unitTurns, h]

/-- One more turn after `n` of them. -/
theorem unitTurns_succ' {u : UnitId} {n : Nat} {s t : State} (h : unitTurns u n s = .next t) :
    unitTurns u (n + 1) s = perform (.turn u) t := by
  induction n generalizing s with
  | zero =>
    cases h
    rw [unitTurns]
    cases hp : perform (.turn u) t <;> rfl
  | succ n ih =>
    cases hp : perform (.turn u) s with
    | next s' =>
      rw [unitTurns_succ (n + 1) hp]
      exact ih (unitTurns_succ n hp ▸ h)
    | fault r => simp [unitTurns, hp] at h
    | refused r => simp [unitTurns, hp] at h

theorem State.setEu_self {k : Nat} {s : State} {e : Eu} (h : s.eu? k = some e) : s.setEu k e = s := by
  refine State.ext_units rfl rfl (fun j => ?_) (State.setEu_du · k e s)
  by_cases hj : j = k
  · subst hj
    exact (State.setEu_eu_same h e).trans h.symm
  · exact State.setEu_eu_other hj e s

theorem State.setDu_self {k : Nat} {s : State} {d : Du} (h : s.du? k = some d) : s.setDu k d = s := by
  refine State.ext_units rfl rfl (State.setDu_eu · k d s) (fun j => ?_)
  by_cases hj : j = k
  · subst hj
    exact (State.setDu_du_same h d).trans h.symm
  · exact State.setDu_du_other hj d s

/-- The next bytes of the input from the program counter on: the first is what InRead reads, the others come after it. -/
theorem inRead_of_prefix {buf t : List Byte} {i : Nat} {b : Byte} (h : b :: t <+: buf.drop i) :
    i < buf.length ∧ inRead buf i = some b ∧ t <+: buf.drop (i + 1) := by
  obtain ⟨rest, hrest⟩ := h
  have hget : buf[i]? = some b := by
    rw [← Nat.add_zero i, ← List.getElem?_drop, ← hrest]
    rfl
  refine ⟨(List.getElem?_eq_some_iff.mp hget).1, hget, rest, ?_⟩
  rw [← List.drop_drop, ← hrest]
  rfl

/-! ## A whole encode operation (R68) -/

theorem turn_eu {k : Nat} {s : State} {e : Eu} {i : Instr} (he : s.eu? k = some e) (hi : e.enabled k = some i) :
    perform (.turn { inst := k, kind := .eu }) s = exec i s := by
  rw [perform, enabledStep_eu he, hi]
  rfl

theorem turn_eu_byte {k : Nat} {s : State} {e : Eu} {b : Byte} (he : s.eu? k = some e) (hs : e.status = .busy)
    (hi : e.inOff < e.inLen) (hb : inRead e.inBuf e.inOff = some b) :
    perform (.turn { inst := k, kind := .eu }) s = .next (s.setEu k (e.afterByte b)) :=
  (turn_eu he (e.enabled_byte k hs hi)).trans (exec_euStep he hs hi hb)

theorem turn_eu_finish {k : Nat} {s : State} {e : Eu} (he : s.eu? k = some e) (hs : e.status = .busy)
    (hi : e.inOff = e.inLen) : perform (.turn { inst := k, kind := .eu }) s = .next (s.setEu k e.afterFinish) :=
  (turn_eu he (e.enabled_finish k hs hi)).trans (exec_euFinish he hs hi)

/-- The unit after its byte steps on the bytes of a sequence. -/
def Eu.feed (e : Eu) : List Byte → Eu
  | [] => e
  | b :: t => (e.afterByte b).feed t

theorem Eu.feed_frame (e : Eu) (bs : List Byte) :
    (e.feed bs).status = e.status ∧ (e.feed bs).inBuf = e.inBuf ∧ (e.feed bs).inLen = e.inLen ∧
      (e.feed bs).inOff = e.inOff + bs.length ∧ (e.feed bs).ret = e.ret := by
  induction bs generalizing e with
  | nil => exact ⟨rfl, rfl, rfl, rfl, rfl⟩
  | cons b t ih =>
    obtain ⟨hs, hbuf, hlen, hoff, hret⟩ := ih (e.afterByte b)
    refine ⟨hs.trans (e.afterByte_status b), hbuf.trans (e.afterByte_inBuf b), hlen.trans (e.afterByte_inLen b), ?_,
      hret.trans (e.afterByte_ret b)⟩
    rw [Eu.feed, hoff, Eu.afterByte_inOff, List.length_cons, Nat.add_assoc, Nat.add_comm 1]

/-- As many turns as there are bytes run the byte steps on them. -/
theorem unitTurns_eu_feed {k : Nat} {s : State} {e : Eu} {bs : List Byte} (he : s.eu? k = some e)
    (hs : e.status = .busy) (hlen : e.inLen = e.inBuf.length) (hbs : bs <+: e.inBuf.drop e.inOff) :
    unitTurns { inst := k, kind := .eu } bs.length s = .next (s.setEu k (e.feed bs)) := by
  induction bs generalizing s e with
  | nil => exact congrArg _ (State.setEu_self he).symm
  | cons b t ih =>
    obtain ⟨hlt, hb, ht⟩ := inRead_of_prefix hbs
    rw [List.length_cons, unitTurns_succ _ (turn_eu_byte he hs (hlen ▸ hlt) hb),
      ih (State.setEu_eu_same he _) (by simpa using hs) (by simpa using hlen) (by simpa using ht), State.setEu_setEu]
    rfl

/-- The run detector's registers are the same in both units. -/
structure Eu.SameDetector (e f : Eu) : Prop where
  runOpen : e.runOpen = f.runOpen
  runVal : e.runVal = f.runVal
  runLen : e.runLen = f.runLen
  split : e.split = f.split

/-- What the run detector does and returns is told from its own registers. -/
theorem Eu.SameDetector.rdByte {e f : Eu} (h : e.SameDetector f) (b : Byte) :
    (e.rdByte b).1.SameDetector (f.rdByte b).1 ∧ (e.rdByte b).2 = (f.rdByte b).2 := by
  obtain ⟨ho, hv, hl, hs⟩ := h
  simp only [Eu.rdByte, ho, hv, hl]
  split_ifs
  · exact ⟨⟨rfl, rfl, rfl, rfl⟩, rfl⟩
  · exact ⟨⟨ho, hv, congrArg (· + 1) hl, hs⟩, rfl⟩
  · exact ⟨⟨ho, hv, rfl, rfl⟩, congrArg (fmt _) hv⟩
  · exact ⟨⟨ho, rfl, rfl, rfl⟩, by simp only [Eu.rdBreak, hv, hl, hs]⟩

theorem Eu.SameDetector.rdFeed {e f : Eu} (h : e.SameDetector f) (t : List Byte) : e.rdFeed t = f.rdFeed t := by
  induction t generalizing e f with
  | nil =>
    obtain ⟨ho, hv, hl, hs⟩ := h
    simp only [Eu.rdFeed, Eu.rdFlush, ho, hv, hl, hs]
  | cons b t ih =>
    obtain ⟨hnext, hout⟩ := h.rdByte b
    rw [Eu.rdFeed, Eu.rdFeed, hout, ih hnext]

/-- What the byte steps have appended and what the detector will return for the rest is what it returns for all of it. -/
theorem Eu.feed_outBuf_append_rdFeed (e : Eu) (bs t : List Byte) :
    (e.feed bs).outBuf ++ (e.feed bs).rdFeed t = e.outBuf ++ e.rdFeed (bs ++ t) := by
  induction bs generalizing e with
  | nil => rfl
  | cons b bs ih =>
    have hsame : (e.afterByte b).SameDetector (e.rdByte b).1 := ⟨rfl, rfl, rfl, rfl⟩
    rw [Eu.feed, ih, hsame.rdFeed, Eu.afterByte_outBuf, List.append_assoc]
    rfl

theorem Eu.start_feed_output (x bs t : List Byte) (h : x = bs ++ t) :
    ((Eu.start x).feed bs).outBuf ++ ((Eu.start x).feed bs).rdFeed t = refEncode x := by
  have hsame : (Eu.start x).SameDetector Eu.reset := ⟨rfl, rfl, rfl, rfl⟩
  rw [Eu.feed_outBuf_append_rdFeed, ← h, hsame.rdFeed, runDetectorComputesEncode]
  rfl

theorem Eu.afterFinish_eq (e : Eu) : e.afterFinish =
    { status := .done, inBuf := e.inBuf, inLen := e.inLen, inOff := e.inOff, outBuf := e.outBuf ++ e.rdFeed [],
      runOpen := false, runVal := 0x00, runLen := 0, split := false, ret := e.ret } := rfl

/-- What a finished encode operation leaves in the unit (R68). -/
def Eu.encoded (x : List Byte) : Eu :=
  { Eu.reset with status := .done, inBuf := x, inLen := x.length, inOff := x.length, outBuf := refEncode x }

theorem Eu.start_feed_afterFinish (x : List Byte) : ((Eu.start x).feed x).afterFinish = Eu.encoded x := by
  obtain ⟨-, hbuf, hlen, hoff, hret⟩ := (Eu.start x).feed_frame x
  rw [Eu.afterFinish_eq, Eu.start_feed_output x x [] (List.append_nil x).symm, hbuf, hlen, hoff, hret]
  simp [Eu.encoded, Eu.start, Eu.reset]

/-- The first `m` turns after ENCODE(x) run the byte steps on the first `m` bytes of `x`. -/
theorem unitTurns_eu_start {k m : Nat} {x : List Byte} {s : State} {e : Eu} (he : s.eu? k = some e) (hm : m ≤ x.length) :
    unitTurns { inst := k, kind := .eu } m (s.setEu k (Eu.start x)) = .next (s.setEu k ((Eu.start x).feed (x.take m))) := by
  have h := unitTurns_eu_feed (State.setEu_eu_same he (Eu.start x)) rfl rfl (List.take_prefix m x)
  rwa [List.length_take_of_le hm, State.setEu_setEu] at h

/-- After ENCODE(x), one turn for each byte and one for the finish step end the operation. -/
theorem unitTurns_eu_encoded {k : Nat} (x : List Byte) {s : State} {e : Eu} (he : s.eu? k = some e) :
    unitTurns { inst := k, kind := .eu } (x.length + 1) (s.setEu k (Eu.start x)) = .next (s.setEu k (Eu.encoded x)) := by
  have hbytes := unitTurns_eu_start he (le_refl x.length)
  rw [List.take_length] at hbytes
  obtain ⟨hs, -, hlen, hoff, -⟩ := (Eu.start x).feed_frame x
  have hend : ((Eu.start x).feed x).inOff = ((Eu.start x).feed x).inLen :=
    hoff.trans ((Nat.zero_add _).trans hlen.symm)
  rw [unitTurns_succ' hbytes, turn_eu_finish (State.setEu_eu_same he _) hs hend, State.setEu_setEu,
    Eu.start_feed_afterFinish]

/-- Settles O42: the byte steps have appended what the detector does not return for the rest any more, and the finish step appends
the last part. -/
theorem encodeOperation : Obligations.EncodeOperation := by
  intro k x s e he hs hx hy
  refine ⟨_, exec_encode he hs hx hy, unitTurns_eu_encoded x he, fun m hm => ?_⟩
  obtain ⟨hstatus, -, -, hoff, -⟩ := (Eu.start x).feed_frame (x.take m)
  refine ⟨_, _, unitTurns_eu_start he hm, State.setEu_eu_same he _, hstatus, ?_, ?_⟩
  · rw [hoff, List.length_take_of_le hm]
    exact Nat.zero_add m
  · exact ⟨_, Eu.start_feed_output x (x.take m) (x.drop m) (List.take_append_drop m x).symm⟩

/-! ## The Decoder Unit's steps as one function (R75 to R82) -/

/-- What the byte step that the phase and the byte `b` select leaves in the unit (R76 to R79). -/
def Du.afterByte (b : Byte) (d : Du) : Du :=
  Du.advance 1 <| match d.phase with
    | .head => if b = Config.sentinel then { d with blkOff := d.inOff, lenAcc := 0, phase := .len0 } else d.outAppend [b]
    | .len0 | .len1 | .len2 | .len3 => { d with lenAcc := d.lenAcc * 256 + b.setWidth 32, phase := d.phase.afterLen }
    | .val => { d.outAppend (List.replicate d.lenAcc.toNat b) with lenAcc := 0, phase := .head }

/-- What the finish step that the phase selects leaves in the unit (R81, R82). -/
def Du.afterFinish (d : Du) : Du :=
  if d.phase = .head then { d with status := .done } else d.raiseTruncated d.blkOff

/-- A byte step writes neither the status nor the input, and moves the program counter by 1. -/
theorem Du.afterByte_frame (b : Byte) (d : Du) :
    (d.afterByte b).status = d.status ∧ (d.afterByte b).inBuf = d.inBuf ∧ (d.afterByte b).inLen = d.inLen ∧
      (d.afterByte b).inOff = d.inOff + 1 := by
  unfold Du.afterByte
  split
  case h_1 => split_ifs <;> exact ⟨rfl, rfl, rfl, rfl⟩
  all_goals exact ⟨rfl, rfl, rfl, rfl⟩

section
variable {k : Nat} {s : State} {d : Du}

/-- The byte step that is selected completes. -/
theorem exec_byteInstr {b : Byte} (hd : s.du? k = some d) (hs : d.status = .busy) (hi : d.inOff < d.inLen)
    (hb : inRead d.inBuf d.inOff = some b) : exec (d.byteInstr k) s = .next (s.setDu k (d.afterByte b)) := by
  have onByte {f : Byte → Outcome Du} {d' : Du} (hf : f b = .next d') : d.onByte f = .next d' :=
    Du.onByte_eq_next.mpr ⟨hs, hi, b, hb, hf⟩
  cases hp : d.phase with
  | head =>
    by_cases hbs : b = Config.sentinel
    · rw [Du.byteInstr, hp, if_pos (hb.trans (congrArg some hbs)), Du.afterByte, hp, if_pos hbs]
      exact withDu_of_next hd (onByte (if_pos ⟨hp, hbs⟩))
    · rw [Du.byteInstr, hp, if_neg (fun h => hbs (Option.some.inj (hb.symm.trans h))), Du.afterByte, hp, if_neg hbs]
      exact withDu_of_next hd (onByte (if_pos ⟨hp, hbs⟩))
  | len0 | len1 | len2 | len3 =>
    rw [Du.byteInstr, hp, Du.afterByte, hp]
    exact withDu_of_next hd (onByte (by rw [hp]; rfl))
  | val =>
    rw [Du.byteInstr, hp, Du.afterByte, hp]
    exact withDu_of_next hd (onByte (if_pos hp))

theorem enabledStep_du (hd : s.du? k = some d) : enabledStep { inst := k, kind := .du } s = d.enabled k := by
  rw [enabledStep, hd]
  rfl

theorem turn_du {i : Instr} (hd : s.du? k = some d) (hi : d.enabled k = some i) :
    perform (.turn { inst := k, kind := .du }) s = exec i s := by
  rw [perform, enabledStep_du hd, hi]
  rfl

theorem turn_du_byte {b : Byte} (hd : s.du? k = some d) (hs : d.status = .busy) (hi : d.inOff < d.inLen)
    (hb : inRead d.inBuf d.inOff = some b) :
    perform (.turn { inst := k, kind := .du }) s = .next (s.setDu k (d.afterByte b)) :=
  (turn_du hd ((if_pos hs).trans (if_pos hi))).trans (exec_byteInstr hd hs hi hb)

theorem turn_du_finish (hd : s.du? k = some d) (hs : d.status = .busy) (hi : d.inOff = d.inLen) :
    perform (.turn { inst := k, kind := .du }) s = .next (s.setDu k d.afterFinish) := by
  have henabled : d.enabled k = if d.phase = .head then some (.duFinishOk k) else some (.duFinishTrunc k) :=
    (if_pos hs).trans ((if_neg (Nat.not_lt_of_le hi.ge)).trans (if_pos hi))
  unfold Du.afterFinish
  split_ifs at henabled ⊢ with hp
  · exact (turn_du hd henabled).trans (withDu_of_next hd (if_pos ⟨hs, hi, hp⟩))
  · exact (turn_du hd henabled).trans (withDu_of_next hd (if_pos ⟨hs, hi, hp⟩))

end

/-- The unit after its byte steps on the bytes of a sequence. -/
def Du.feed (d : Du) : List Byte → Du
  | [] => d
  | b :: t => (d.afterByte b).feed t

theorem Du.feed_frame (d : Du) (bs : List Byte) :
    (d.feed bs).status = d.status ∧ (d.feed bs).inBuf = d.inBuf ∧ (d.feed bs).inLen = d.inLen ∧
      (d.feed bs).inOff = d.inOff + bs.length := by
  induction bs generalizing d with
  | nil => exact ⟨rfl, rfl, rfl, rfl⟩
  | cons b t ih =>
    obtain ⟨hs, hbuf, hlen, hoff⟩ := d.afterByte_frame b
    obtain ⟨hs', hbuf', hlen', hoff'⟩ := ih (d.afterByte b)
    refine ⟨hs'.trans hs, hbuf'.trans hbuf, hlen'.trans hlen, ?_⟩
    rw [Du.feed, hoff', hoff, List.length_cons, Nat.add_assoc, Nat.add_comm 1]

/-- As many turns as there are bytes run the byte steps on them. -/
theorem unitTurns_du_feed {k : Nat} {s : State} {d : Du} {bs : List Byte} (hd : s.du? k = some d)
    (hs : d.status = .busy) (hlen : d.inLen = d.inBuf.length) (hbs : bs <+: d.inBuf.drop d.inOff) :
    unitTurns { inst := k, kind := .du } bs.length s = .next (s.setDu k (d.feed bs)) := by
  induction bs generalizing s d with
  | nil => exact congrArg _ (State.setDu_self hd).symm
  | cons b t ih =>
    obtain ⟨hlt, hb, ht⟩ := inRead_of_prefix hbs
    obtain ⟨hs', hbuf', hlen', hoff'⟩ := d.afterByte_frame b
    rw [List.length_cons, unitTurns_succ _ (turn_du_byte hd hs (hlen ▸ hlt) hb),
      ih (State.setDu_du_same hd _) (hs'.trans hs) (by rw [hlen', hbuf', hlen]) (by rwa [hbuf', hoff']), State.setDu_setDu]
    rfl

/-! ## A whole decode operation on a stream that decodes (R84) -/

/-- Four length bytes accumulate to the word they stand for (R78). -/
theorem lenAcc_be32 (l0 l1 l2 l3 : Byte) :
    (((0 * 256 + l0.setWidth 32) * 256 + l1.setWidth 32) * 256 + l2.setWidth 32) * 256 + l3.setWidth 32 =
      be32 l0 l1 l2 l3 := by
  have h0 := l0.isLt
  have h1 := l1.isLt
  have h2 := l2.isLt
  have h3 := l3.isLt
  have h256 : (256 : Word32).toNat = 256 := rfl
  have hzero : (0 : Word32).toNat = 0 := rfl
  apply BitVec.eq_of_toNat_eq
  simp only [be32_toNat, BitVec.toNat_add, BitVec.toNat_mul, BitVec.toNat_setWidth, h256, hzero]
  omega

/-- At a unit boundary the six bytes of a run-block do what the whole RUN unit does (R80). -/
theorem Du.feed_run {d : Du} (hp : d.phase = .head) (l0 l1 l2 l3 v : Byte) (rest : List Byte) :
    d.feed (Config.sentinel :: l0 :: l1 :: l2 :: l3 :: v :: rest) =
      Du.feed ({ d.outAppend (List.replicate (be32 l0 l1 l2 l3).toNat v) with
        blkOff := d.inOff, lenAcc := 0, phase := .head }.advance Config.blockLen) rest := by
  rw [← lenAcc_be32]
  simp only [Du.feed, Du.afterByte, hp, if_true, Du.advance, Du.outAppend, Phase.afterLen]
  rfl

theorem Du.feed_lit {d : Du} (hp : d.phase = .head) {b : Byte} (hb : b ≠ Config.sentinel) (t : List Byte) :
    d.feed (b :: t) = ((d.outAppend [b]).advance 1).feed t := by
  rw [Du.feed, Du.afterByte, hp, if_neg hb]

/-- From a unit boundary the byte steps on a stream that decodes append what it decodes to and end at a unit boundary. -/
theorem Du.feed_of_refDecode {d : Du} {y x : List Byte} (hp : d.phase = .head) (h : refDecode y = .ok x) :
    (d.feed y).phase = .head ∧ (d.feed y).outBuf = d.outBuf ++ x := by
  induction y using wire_induction generalizing d x with
  | nil =>
    cases h
    exact ⟨hp, (List.append_nil _).symm⟩
  | run l0 l1 l2 l3 v rest ih =>
    rw [refDecode_run] at h
    obtain ⟨x', hx', rfl⟩ := DecodeResult.after_eq_ok.mp h
    rw [Du.feed_run hp, ← List.append_assoc]
    exact ih rfl hx'
  | trunc t ht => exact nomatch (refDecode_trunc ht).symm.trans h
  | lit b t hb ih =>
    rw [refDecode_lit hb] at h
    obtain ⟨x', hx', rfl⟩ := DecodeResult.after_eq_ok.mp h
    rw [Du.feed_lit hp hb, ← List.append_assoc]
    exact ih hp hx'

/-- After DECODE(y) of a stream that decodes, one turn for each byte and one for the finish step end the operation, and its result
is what `y` decodes to. -/
theorem unitTurns_du_decoded {k : Nat} {y x : List Byte} {s : State} {d : Du} (hd : s.du? k = some d)
    (h : refDecode y = .ok x) :
    ∃ d', unitTurns { inst := k, kind := .du } (y.length + 1) (s.setDu k (Du.start y)) = .next (s.setDu k d') ∧
      d'.result = some (.ok x) := by
  obtain ⟨hs, -, hlen, hoff⟩ := (Du.start y).feed_frame y
  obtain ⟨hp, hout⟩ := Du.feed_of_refDecode (d := Du.start y) rfl h
  have hbytes := unitTurns_du_feed (State.setDu_du_same hd (Du.start y)) rfl rfl (List.prefix_refl y)
  rw [State.setDu_setDu] at hbytes
  have hend : ((Du.start y).feed y).inOff = ((Du.start y).feed y).inLen :=
    hoff.trans ((Nat.zero_add _).trans hlen.symm)
  refine ⟨((Du.start y).feed y).afterFinish, ?_, ?_⟩
  · rw [unitTurns_succ' hbytes, turn_du_finish (State.setDu_du_same hd _) hs hend, State.setDu_setDu]
  · rw [Du.afterFinish, if_pos hp, Du.result_done rfl]
    exact congrArg (fun o => some (DecodeResult.ok o)) hout

/-- An admitted DECODE of a stream that decodes (R74). -/
theorem exec_decode {k : Nat} {y x : List Byte} {s : State} {d : Du} (hd : s.du? k = some d) (hs : d.status ≠ .busy)
    (h : refDecode y = .ok x) (hy : y.length ≤ maxLength s.offsetWidth) (hx : x.length ≤ maxLength s.offsetWidth) :
    exec (.decode k y) s = .next (s.setDu k (Du.start y)) := by
  have hproduced : producedLength y = x.length := by rw [producedLength_eq, producedOutput, h]
  exact withDu_of_next hd (by rw [startRefusal_eq_none.mpr ⟨hs, hy, hproduced ▸ hx⟩])

/-- Settles O44: the two whole operations, with the round trip of the reference functions between them. -/
theorem codecRoundTrip : Obligations.CodecRoundTrip := by
  rintro k j x s ⟨e, he, hes⟩ ⟨d, hd, hds⟩ hx hy
  have hd₂ : (s.setEu k (Eu.encoded x)).du? j = some d := (State.setEu_du j k _ s).trans hd
  obtain ⟨d', hturns, hresult⟩ := unitTurns_du_decoded hd₂ (refDecode_refEncode x)
  exact ⟨_, _, Eu.encoded x, _, _, d', exec_encode he hes hx hy, unitTurns_eu_encoded x he, State.setEu_eu_same he _,
    exec_decode hd₂ hds (refDecode_refEncode x) hy hx, hturns, State.setDu_du_same hd₂ d', hresult⟩

/-! ## Which unit moves when the agenda is empty (log 1) -/

/-- The unit that is found is a BUSY unit of the block at its position. -/
theorem firstBusy_eq_some {j : Nat} {l : List Inst} {u : UnitId} (h : firstBusy j l = some u) :
    ∃ i n, l[i]? = some n ∧ ((u = { inst := j + i, kind := .eu } ∧ n.eu.status = .busy) ∨
      (u = { inst := j + i, kind := .du } ∧ n.du.status = .busy)) := by
  induction l generalizing j with
  | nil => cases h
  | cons n t ih =>
    unfold firstBusy at h
    split_ifs at h with he hd
    · cases h
      exact ⟨0, n, rfl, .inl ⟨rfl, he⟩⟩
    · cases h
      exact ⟨0, n, rfl, .inr ⟨rfl, hd⟩⟩
    · obtain ⟨i, m, hm, hu⟩ := ih h
      exact ⟨i + 1, m, hm, by rwa [← Nat.add_assoc, Nat.add_right_comm]⟩

theorem firstBusy_eq_none {j : Nat} {l : List Inst} :
    firstBusy j l = none ↔ ∀ n ∈ l, n.eu.status ≠ .busy ∧ n.du.status ≠ .busy := by
  induction l generalizing j with
  | nil => simp [firstBusy]
  | cons n t ih =>
    unfold firstBusy
    split_ifs with he hd
    · simp [he]
    · simp [hd]
    · simp [he, hd, ih]

theorem busy_of_firstBusy {s : State} {u : UnitId} (h : firstBusy 0 s.insts = some u) : s.Busy u := by
  obtain ⟨i, n, hn, ⟨rfl, hs⟩ | ⟨rfl, hs⟩⟩ := firstBusy_eq_some h
  · exact ⟨n.eu, State.eu?_eq_some.mpr ⟨n, by rwa [Nat.zero_add], rfl⟩, hs⟩
  · exact ⟨n.du, State.du?_eq_some.mpr ⟨n, by rwa [Nat.zero_add], rfl⟩, hs⟩

/-! ## The machine's step by its next move (R64, R75, R106; log 1) -/

theorem step_of_agenda {s : State} {m : Move} {rest : List Move} (h : s.agenda = m :: rest) :
    step s = perform m { s with agenda := rest } := by
  have hpop : s.popMove = { s with agenda := rest } := by rw [State.popMove, h, List.tail_cons]
  rw [← hpop]
  simp only [step, h]

theorem step_of_noneBusy {s : State} (ha : s.agenda = []) (h : s.NoneBusy) : step s = .next s := by
  simp only [step, ha, performIdle, firstBusy_eq_none.mpr h]

/-- With an empty agenda and some unit BUSY the step is a BUSY unit's turn. -/
theorem step_of_busy {s : State} (ha : s.agenda = []) (h : ¬s.NoneBusy) :
    ∃ u, s.Busy u ∧ step s = perform (.turn u) s := by
  obtain ⟨u, hu⟩ := Option.ne_none_iff_exists'.mp (mt firstBusy_eq_none.mp h)
  exact ⟨u, busy_of_firstBusy hu, by simp only [step, ha, performIdle, hu]⟩

/-! ## The steps left (R64, R75) -/

/-- The steps an Encoder Unit still has to take. -/
def Eu.workLeft (e : Eu) : Nat := if e.status = .busy then e.inLen - e.inOff + 1 else 0

/-- The steps a Decoder Unit still has to take. -/
def Du.workLeft (d : Du) : Nat := if d.status = .busy then d.inLen - d.inOff + 1 else 0

theorem Inst.workLeft_eq (n : Inst) : n.workLeft = n.eu.workLeft + n.du.workLeft := rfl

theorem sum_map_modify {α : Type} (g : α → Nat) (f : α → α) {l : List α} {k : Nat} {a : α} (h : l[k]? = some a) :
    ((l.modify k f).map g).sum + g a = (l.map g).sum + g (f a) := by
  induction l generalizing k with
  | nil => simp at h
  | cons b t ih =>
    cases k with
    | zero =>
      cases h
      simp only [List.modify_zero_cons, List.map_cons, List.sum_cons]
      omega
    | succ k =>
      have hk := ih (k := k) h
      simp only [List.modify_succ_cons, List.map_cons, List.sum_cons]
      omega

theorem State.workLeft_setEu {s : State} {k : Nat} {e : Eu} (h : s.eu? k = some e) (e' : Eu) :
    (s.setEu k e').workLeft + e.workLeft = s.workLeft + e'.workLeft := by
  obtain ⟨n, hn, rfl⟩ := State.eu?_eq_some.mp h
  have hsum := sum_map_modify Inst.workLeft (fun n => { n with eu := e' }) hn
  simp only [Inst.workLeft_eq] at hsum
  simp only [State.workLeft, State.setEu]
  omega

theorem State.workLeft_setDu {s : State} {k : Nat} {d : Du} (h : s.du? k = some d) (d' : Du) :
    (s.setDu k d').workLeft + d.workLeft = s.workLeft + d'.workLeft := by
  obtain ⟨n, hn, rfl⟩ := State.du?_eq_some.mp h
  have hsum := sum_map_modify Inst.workLeft (fun n => { n with du := d' }) hn
  simp only [Inst.workLeft_eq] at hsum
  simp only [State.workLeft, State.setDu]
  omega

/-- No step is left exactly when no unit is BUSY. -/
theorem State.workLeft_eq_zero {s : State} : s.workLeft = 0 ↔ s.NoneBusy := by
  simp [State.workLeft, List.sum_eq_zero_iff, Inst.workLeft]

/-- A BUSY Encoder Unit's turn completes and takes one off the steps it has left. -/
theorem turn_eu_progress {k : Nat} {s : State} {e : Eu} (he : s.eu? k = some e) (hinv : e.Inv s.offsetWidth)
    (hs : e.status = .busy) :
    ∃ e', perform (.turn { inst := k, kind := .eu }) s = .next (s.setEu k e') ∧ e'.workLeft + 1 = e.workLeft := by
  obtain ⟨hin, -⟩ := hinv
  obtain ⟨hlt, b, hb⟩ | heq := hin.byte_or_end
  · refine ⟨_, turn_eu_byte he hs hlt hb, ?_⟩
    rw [Eu.workLeft, Eu.workLeft, Eu.afterByte_status, Eu.afterByte_inLen, Eu.afterByte_inOff, if_pos hs, if_pos hs]
    omega
  · refine ⟨_, turn_eu_finish he hs heq, ?_⟩
    rw [Eu.workLeft, Eu.workLeft, if_pos hs, heq, Nat.sub_self]
    rfl

theorem Du.afterFinish_status (d : Du) : d.afterFinish.status ≠ .busy := by
  unfold Du.afterFinish
  split_ifs <;> exact nofun

/-- A BUSY Decoder Unit's turn completes and takes one off the steps it has left. -/
theorem turn_du_progress {k : Nat} {s : State} {d : Du} (hd : s.du? k = some d) (hinv : d.Inv s.offsetWidth)
    (hs : d.status = .busy) :
    ∃ d', perform (.turn { inst := k, kind := .du }) s = .next (s.setDu k d') ∧ d'.workLeft + 1 = d.workLeft := by
  obtain ⟨hin, -⟩ := hinv
  obtain ⟨hlt, b, hb⟩ | heq := hin.byte_or_end
  · obtain ⟨hs', -, hlen', hoff'⟩ := d.afterByte_frame b
    refine ⟨_, turn_du_byte hd hs hlt hb, ?_⟩
    rw [Du.workLeft, Du.workLeft, hs', hlen', hoff', if_pos hs, if_pos hs]
    omega
  · refine ⟨_, turn_du_finish hd hs heq, ?_⟩
    rw [Du.workLeft, Du.workLeft, if_neg d.afterFinish_status, if_pos hs, heq, Nat.sub_self]

/-- A BUSY unit's turn completes, takes one off the steps left and leaves the agenda. -/
theorem turn_progress {u : UnitId} {s : State} (hs : s.Inv) (hu : s.Busy u) :
    ∃ t, perform (.turn u) s = .next t ∧ t.workLeft + 1 = s.workLeft ∧ t.agenda = s.agenda := by
  obtain ⟨-, heu, hdu⟩ := State.inv_iff_units.mp hs
  obtain ⟨k, kind⟩ := u
  cases kind with
  | eu =>
    obtain ⟨e, he, hbusy⟩ := hu
    obtain ⟨e', hturn, hwork⟩ := turn_eu_progress he (heu k e he) hbusy
    have hsum := State.workLeft_setEu he e'
    exact ⟨_, hturn, by omega, rfl⟩
  | du =>
    obtain ⟨d, hd, hbusy⟩ := hu
    obtain ⟨d', hturn, hwork⟩ := turn_du_progress hd (hdu k d hd) hbusy
    have hsum := State.workLeft_setDu hd d'
    exact ⟨_, hturn, by omega, rfl⟩

/-- While steps are left, a step of the machine completes, takes one off them and leaves the agenda empty. -/
theorem step_progress {s : State} (hs : s.Inv) (ha : s.agenda = []) (hw : s.workLeft ≠ 0) :
    ∃ t, step s = .next t ∧ t.Inv ∧ t.agenda = [] ∧ t.workLeft + 1 = s.workLeft := by
  obtain ⟨u, hu, hstep⟩ := step_of_busy ha (mt State.workLeft_eq_zero.mpr hw)
  obtain ⟨t, hturn, hwork, hagenda⟩ := turn_progress hs hu
  exact ⟨t, hstep.trans hturn, perform_keeps_inv hs hturn, hagenda.trans ha, hwork⟩

/-! ## Moves that complete (R64, R75, R90, R91) -/

/-- A turn of any unit completes: a unit that is not BUSY has no step to take (R102). -/
theorem turn_completes {s : State} (hs : s.Inv) (u : UnitId) : ∃ t, perform (.turn u) s = .next t := by
  by_cases hu : s.Busy u
  · obtain ⟨t, hturn, -⟩ := turn_progress hs hu
    exact ⟨t, hturn⟩
  · have hnone : enabledStep u s = none := Option.eq_none_iff_forall_ne_some.mpr fun i hi => hu (enabledStep_eq_some hi).1
    exact ⟨s, congrArg (runEnabled · s) hnone⟩

theorem Du.stream_length {w : Nat} {d : Du} (h : InputInv w d.inBuf d.inLen d.inOff) :
    d.stream.length + d.inOff = d.inLen := by
  obtain ⟨hlen, hoff, -⟩ := h
  rw [Du.stream, List.length_drop, List.length_take_of_le hlen.le, Nat.sub_add_cancel hoff]

/-- A wire unit that the stream at a unit boundary decodes to completes (R76, R80, R82). -/
theorem exec_decoded_completes {k : Nat} {s : State} {d : Du} {i : Instr} {rest : List Byte} (hd : s.du? k = some d)
    (hinv : d.Inv s.offsetWidth) (hs : d.status = .busy) (hp : d.phase = .head)
    (hdec : decode k d.stream = .ok (i, rest)) : ∃ t, exec i s = .next t := by
  obtain ⟨hin, -⟩ := hinv
  have hlen := Du.stream_length hin
  generalize d.stream = y at hdec hlen
  induction y using wire_induction with
  | nil => cases hdec
  | run l0 l1 l2 l3 v t =>
    cases (decode_run k l0 l1 l2 l3 v t).symm.trans hdec
    simp only [List.length_cons] at hlen
    exact ⟨_, exec_run hd hs hp (by rw [Config.blockLen]; omega) _ v⟩
  | trunc t ht =>
    cases (decode_trunc k ht).symm.trans hdec
    rw [List.length_cons] at hlen
    exact ⟨_, exec_truncated hd ht hs hp (by omega)⟩
  | lit b t hb =>
    cases (decode_lit k hb t).symm.trans hdec
    rw [List.length_cons] at hlen
    exact ⟨_, exec_lit hd hb hs hp (by omega)⟩

/-- A wire turn of any unit completes: it is a whole wire unit or the turn of that unit (log 5). -/
theorem wireTurn_completes {s : State} (hs : s.Inv) (k : Nat) : ∃ t, perform (.wireTurn k) s = .next t := by
  obtain ⟨-, -, hdu⟩ := State.inv_iff_units.mp hs
  cases hd : s.du? k with
  | none => exact ⟨s, by rw [perform, hd]; rfl⟩
  | some d =>
    have hwire : perform (.wireTurn k) s = runEnabled (d.wireInstr k) s := by rw [perform, hd]; rfl
    have hturn : perform (.turn { inst := k, kind := .du }) s = runEnabled (d.enabled k) s := by
      rw [perform, enabledStep_du hd]
    rw [hwire, Du.wireInstr]
    split_ifs with hboundary
    · obtain ⟨hbusy, hp, -⟩ := hboundary
      split
      · next hdec => exact exec_decoded_completes hd (hdu k d hd) hbusy hp hdec
      · exact hturn ▸ turn_completes hs _
    · exact hturn ▸ turn_completes hs _

/-- A host command is admitted or refused, and never faults (R91). -/
theorem HostCommand.exec_ne_fault (c : HostCommand) (s : State) (r : Fault) : exec c.toInstr s ≠ .fault r := by
  intro h
  cases c with
  | encode k x =>
    obtain ⟨e, -, he⟩ := withEu_eq_fault.mp h
    split at he <;> cases he
  | decode k y =>
    obtain ⟨d, -, hd⟩ := withDu_eq_fault.mp h
    split at hd <;> cases hd
  | reset t =>
    obtain ⟨k, _ | _⟩ | _ := t
    · obtain ⟨e, -, he⟩ := withEu_eq_fault (f := fun _ => .next Eu.reset).mp h
      cases he
    · obtain ⟨d, -, hd⟩ := withDu_eq_fault (f := fun _ => .next Du.reset).mp h
      cases hd
    · cases h

/-- A step is a host command or completes. -/
theorem step_host_or_completes {s : State} (hs : s.Inv) :
    (∃ c rest, s.agenda = .host c :: rest ∧ step s = exec c.toInstr { s with agenda := rest }) ∨
      ∃ t, step s = .next t := by
  cases ha : s.agenda with
  | nil =>
    by_cases hbusy : s.NoneBusy
    · exact .inr ⟨s, step_of_noneBusy ha hbusy⟩
    · obtain ⟨u, -, hstep⟩ := step_of_busy ha hbusy
      exact .inr (hstep ▸ turn_completes hs u)
  | cons m rest =>
    rw [step_of_agenda ha]
    have hpop : State.Inv { s with agenda := rest } := hs
    cases m with
    | host c => exact .inl ⟨c, rest, rfl, rfl⟩
    | turn u => exact .inr (turn_completes hpop u)
    | wireTurn k => exact .inr (wireTurn_completes hpop k)

/-! ## The statements about the machine's step -/

/-- Settles O57: each step takes one off the steps left, and where none is left no unit is BUSY. -/
theorem busyUnitsMakeProgress : Obligations.BusyUnitsMakeProgress := by
  intro s hs ha m hm
  induction m generalizing s with
  | zero =>
    refine ⟨s, rfl, rfl, fun hw => ?_⟩
    have hquiet := State.workLeft_eq_zero.mp hw.symm
    exact ⟨hquiet, step_of_noneBusy ha hquiet⟩
  | succ m ih =>
    obtain ⟨s', hstep, hs', ha', hwork⟩ := step_progress hs ha (Nat.ne_zero_of_lt hm)
    obtain ⟨t, hsteps, hleft, hend⟩ := ih s' hs' ha' (by omega)
    exact ⟨t, by rw [steps, hstep]; exact hsteps, by omega, fun h => hend (by omega)⟩

/-- Settles O53, by whether a BUSY unit is found. -/
theorem stepWithoutMoves : Obligations.StepWithoutMoves :=
  fun _ ha => ⟨step_of_noneBusy ha, step_of_busy ha⟩

/-- Settles O56: every move but a host command completes, and a host command does not fault. -/
theorem onlyHostCommandsAreRefused : Obligations.OnlyHostCommandsAreRefused := by
  intro s hs
  refine ⟨fun r h => ?_, turn_completes hs, wireTurn_completes hs, fun r h => ?_⟩
  · obtain ⟨c, rest, -, hstep⟩ | ⟨t, hstep⟩ := step_host_or_completes hs
    · exact c.exec_ne_fault _ r (hstep.symm.trans h)
    · cases hstep.symm.trans h
  · obtain ⟨c, rest, ha, -⟩ | ⟨t, hstep⟩ := step_host_or_completes hs
    · exact ⟨c, rest, ha⟩
    · cases hstep.symm.trans h

/-- Settles O51: the move is performed on the state with it taken off, and which step a unit has enabled is not told from the
agenda. -/
theorem stepRunsTheNextMove : Obligations.StepRunsTheNextMove := by
  intro s rest
  have hsame (u : UnitId) : enabledStep u { s with agenda := rest } = enabledStep u s := rfl
  refine ⟨fun c ha => step_of_agenda ha, fun u i ha hi => ?_, fun u ha hi => ?_⟩
  · rw [step_of_agenda ha, perform, hsame, hi]
    rfl
  · rw [step_of_agenda ha, perform, hsame, hi]
    rfl

end Sys2Proof.Machine
end

section
/-! The decoder (42_decoder.md). The layer first: the byte steps inside a run-block, what every sequence of byte steps keeps,
what a finished decode operation leaves, and the admission of DECODE; then the unit's steps as rows, which of them is enabled,
and the reference function by index. Then the statements. -/

namespace Sys2Proof.Machine

/-! ## The byte steps inside a run-block (R77, R78) -/

theorem Du.afterByte_sent {d : Du} (hp : d.phase = .head) :
    d.afterByte Config.sentinel = { d with blkOff := d.inOff, lenAcc := 0, phase := .len0 }.advance 1 := by
  rw [Du.afterByte, hp, if_pos rfl]

theorem Du.afterByte_lit {d : Du} (hp : d.phase = .head) {b : Byte} (hb : b ≠ Config.sentinel) :
    d.afterByte b = (d.outAppend [b]).advance 1 := by
  rw [Du.afterByte, hp, if_neg hb]

theorem Du.afterByte_len {d : Du} (hp : d.phase ≠ .head) (hv : d.phase ≠ .val) (b : Byte) :
    d.afterByte b = { d with lenAcc := d.lenAcc * 256 + b.setWidth 32, phase := d.phase.afterLen }.advance 1 := by
  cases h : d.phase with
  | head => exact absurd h hp
  | val => exact absurd h hv
  | len0 | len1 | len2 | len3 => rw [Du.afterByte, h]

theorem Du.afterByte_val {d : Du} (hp : d.phase = .val) (b : Byte) :
    d.afterByte b = { d.outAppend (List.replicate d.lenAcc.toNat b) with lenAcc := 0, phase := .head }.advance 1 := by
  rw [Du.afterByte, hp]

theorem Du.advance_advance (m n : Nat) (d : Du) : (d.advance m).advance n = d.advance (m + n) :=
  congrArg (fun i => { d with inOff := i }) (Nat.add_assoc d.inOff m n)

/-- Inside a run-block the bytes up to its value byte write the accumulator, the phase and the program counter alone, and leave
the parser inside the block. -/
theorem Du.feed_inBlock {d : Du} {t : List Byte} (hp : d.phase ≠ .head) (ht : d.phase.blockPos + t.length ≤ 5) :
    ∃ a p, p ≠ .head ∧ d.feed t = { d with lenAcc := a, phase := p }.advance t.length := by
  induction t generalizing d with
  | nil => exact ⟨d.lenAcc, d.phase, hp, rfl⟩
  | cons b t ih =>
    rw [List.length_cons] at ht
    have hv : d.phase ≠ .val := by
      intro hv
      rw [hv, Phase.blockPos] at ht
      omega
    have hpos := Phase.blockPos_afterLen hp hv
    rw [Du.feed, Du.afterByte_len hp hv]
    obtain ⟨a, p, hp', hfeed⟩ := ih (d := { d with
      lenAcc := d.lenAcc * 256 + b.setWidth 32, phase := d.phase.afterLen }.advance 1)
      (Phase.afterLen_ne_head hp) (by simp only [Du.advance]; omega)
    refine ⟨a, p, hp', hfeed.trans ?_⟩
    rw [List.length_cons, Nat.add_comm, ← Du.advance_advance]
    rfl

theorem Du.afterFinish_head {d : Du} (hp : d.phase = .head) : d.afterFinish = { d with status := .done } := if_pos hp

theorem Du.afterFinish_inBlock {d : Du} (hp : d.phase ≠ .head) : d.afterFinish = d.raiseTruncated d.blkOff := if_neg hp

/-- The bytes of a truncated run-block and the finish step do what the whole TRUNCATED unit does (R46, R77, R78, R82). -/
theorem Du.feed_trunc_afterFinish {d : Du} (hp : d.phase = .head) {t : List Byte} (ht : t.length < 5) :
    (d.feed (Config.sentinel :: t)).afterFinish =
      ({ d with blkOff := d.inOff }.advance (1 + t.length)).raiseTruncated d.inOff := by
  have hpos : Phase.len0.blockPos + t.length ≤ 5 := by
    rw [Phase.blockPos]
    omega
  rw [Du.feed, Du.afterByte_sent hp, ← Du.advance_advance]
  obtain ⟨a, p, hp', hfeed⟩ := Du.feed_inBlock (t := t)
    (d := { d with blkOff := d.inOff, lenAcc := 0, phase := .len0 }.advance 1) (show Phase.len0 ≠ .head from nofun) hpos
  rw [hfeed, Du.afterFinish_inBlock hp']
  rfl

/-- Everything a byte step can do (R76 to R79). -/
theorem Du.afterByte_cases {P : Du → Prop} {d : Du} {b : Byte}
    (sent : d.phase = .head → P ({ d with blkOff := d.inOff, lenAcc := 0, phase := .len0 }.advance 1))
    (lit : d.phase = .head → P ((d.outAppend [b]).advance 1))
    (len : d.phase ≠ .head →
      P ({ d with lenAcc := d.lenAcc * 256 + b.setWidth 32, phase := d.phase.afterLen }.advance 1))
    (val : P ({ d.outAppend (List.replicate d.lenAcc.toNat b) with lenAcc := 0, phase := .head }.advance 1)) :
    P (d.afterByte b) := by
  by_cases hp : d.phase = .head
  · by_cases hb : b = Config.sentinel
    · rw [hb, Du.afterByte_sent hp]
      exact sent hp
    · rw [Du.afterByte_lit hp hb]
      exact lit hp
  · by_cases hv : d.phase = .val
    · rw [Du.afterByte_val hv]
      exact val
    · rw [Du.afterByte_len hp hv]
      exact len hp

/-! ## What every sequence of byte steps keeps -/

/-- What each byte step keeps, every sequence of byte steps keeps. -/
theorem Du.feed_keeps {P : Du → Prop} (step : ∀ d b, P d → P (d.afterByte b)) {d : Du} (h : P d) (bs : List Byte) :
    P (d.feed bs) := by
  induction bs generalizing d with
  | nil => exact h
  | cons b t ih => exact ih (step d b h)

theorem Du.feed_append (d : Du) (bs t : List Byte) : d.feed (bs ++ t) = (d.feed bs).feed t := by
  induction bs generalizing d with
  | nil => rfl
  | cons b bs ih => exact ih (d.afterByte b)

/-- No byte step writes the error record (R76 to R79). -/
theorem Du.afterByte_errCode (d : Du) (b : Byte) : (d.afterByte b).errCode = d.errCode :=
  Du.afterByte_cases (P := fun d' => d'.errCode = d.errCode) (fun _ => rfl) (fun _ => rfl) (fun _ => rfl) rfl

/-- A byte step's output is appended (R30). -/
theorem Du.outBuf_prefix_afterByte (d : Du) (b : Byte) : d.outBuf <+: (d.afterByte b).outBuf :=
  Du.afterByte_cases (P := fun d' => d.outBuf <+: d'.outBuf) (fun _ => List.prefix_refl _) (fun _ => List.prefix_append _ _)
    (fun _ => List.prefix_refl _) (List.prefix_append _ _)

/-- At a unit boundary the accumulator is clear (R25 a); every byte step keeps that. -/
theorem Du.afterByte_clear_at_head (d : Du) (b : Byte) (h : d.phase = .head → d.lenAcc = 0) :
    (d.afterByte b).phase = .head → (d.afterByte b).lenAcc = 0 :=
  Du.afterByte_cases (P := fun d' => d'.phase = .head → d'.lenAcc = 0) (fun _ _ => rfl) (fun _ => h)
    (fun hp hq => absurd hq (Phase.afterLen_ne_head hp)) (fun _ => rfl)

theorem Du.feed_errCode (d : Du) (bs : List Byte) : (d.feed bs).errCode = d.errCode :=
  Du.feed_keeps (P := fun d' => d'.errCode = d.errCode) (fun d' b h => (d'.afterByte_errCode b).trans h) rfl bs

theorem Du.outBuf_prefix_feed (d : Du) (bs : List Byte) : d.outBuf <+: (d.feed bs).outBuf :=
  Du.feed_keeps (P := fun d' => d.outBuf <+: d'.outBuf) (fun d' b h => h.trans (d'.outBuf_prefix_afterByte b))
    (List.prefix_refl _) bs

/-! ## A whole decode operation (R84, R85) -/

/-- The finish step writes neither the input, nor the program counter, nor the output, and leaves the parser at a unit boundary
(R81, R82). -/
theorem Du.afterFinish_frame (d : Du) :
    d.afterFinish.inBuf = d.inBuf ∧ d.afterFinish.inLen = d.inLen ∧ d.afterFinish.inOff = d.inOff ∧
      d.afterFinish.outBuf = d.outBuf ∧ d.afterFinish.phase = .head := by
  unfold Du.afterFinish
  split_ifs with hp
  · exact ⟨rfl, rfl, rfl, rfl, hp⟩
  · exact ⟨rfl, rfl, rfl, rfl, rfl⟩

theorem Du.afterFinish_lenAcc {d : Du} (h : d.phase = .head → d.lenAcc = 0) : d.afterFinish.lenAcc = 0 := by
  unfold Du.afterFinish
  split_ifs with hp
  · exact h hp
  · rfl

/-- What a finished decode operation leaves in the unit: its byte steps on the whole input, then the finish step. -/
def Du.decoded (y : List Byte) : Du := ((Du.start y).feed y).afterFinish

theorem Du.decoded_frame (y : List Byte) :
    (Du.decoded y).inBuf = y ∧ (Du.decoded y).inLen = y.length ∧ (Du.decoded y).inOff = y.length ∧
      (Du.decoded y).phase = .head ∧ (Du.decoded y).lenAcc = 0 := by
  obtain ⟨-, hbuf, hlen, hoff⟩ := (Du.start y).feed_frame y
  obtain ⟨hbuf', hlen', hoff', -, hp⟩ := ((Du.start y).feed y).afterFinish_frame
  refine ⟨hbuf'.trans hbuf, hlen'.trans hlen, hoff'.trans (hoff.trans (Nat.zero_add _)), hp, ?_⟩
  exact Du.afterFinish_lenAcc (Du.feed_keeps Du.afterByte_clear_at_head (d := Du.start y) (fun _ => rfl) y)

/-- A stream that decodes ends the operation at DONE, with what it decodes to (R81, R84). -/
theorem Du.decoded_of_ok {y x : List Byte} (h : refDecode y = .ok x) :
    (Du.decoded y).status = .done ∧ (Du.decoded y).outBuf = x ∧ (Du.decoded y).errCode = .none := by
  obtain ⟨hp, hout⟩ := Du.feed_of_refDecode (d := Du.start y) rfl h
  rw [Du.decoded, Du.afterFinish_head hp]
  exact ⟨rfl, hout, (Du.start y).feed_errCode y⟩

/-- A truncated stream is a stream that decodes, then a sentinel at the reported index with fewer than five bytes after it
(R46). -/
theorem exists_of_refDecode_truncated {y : List Byte} {i : Nat} (h : refDecode y = .truncated i) :
    ∃ x t, refDecode (y.take i) = .ok x ∧ t.length < 5 ∧ y = y.take i ++ Config.sentinel :: t ∧ (y.take i).length = i := by
  obtain ⟨⟨us, hus⟩, hget, hlen⟩ := (refDecode_eq_truncated_iff 0 y i).mp h
  obtain ⟨hi, hsent⟩ := List.getElem?_eq_some_iff.mp hget
  refine ⟨_, y.drop (i + 1), (refDecode_eq_ok_iff 0 _ _).mpr ⟨us, hus, rfl⟩, ?_, ?_, List.length_take_of_le hi.le⟩
  · rw [List.length_drop]
    omega
  · rw [← hsent, ← List.drop_eq_getElem_cons hi, List.take_append_drop]

/-- A truncated stream ends the operation at ERROR, with its sentinel's index and the decoding of the units before it
(R82, R84). -/
theorem Du.decoded_of_truncated {y : List Byte} {i : Nat} (h : refDecode y = .truncated i) :
    (Du.decoded y).status = .error ∧ (Du.decoded y).errCode = .truncated ∧ (Du.decoded y).errOffset = i ∧
      refDecode (y.take i) = .ok (Du.decoded y).outBuf := by
  obtain ⟨x, t, hx, ht, hy, hi⟩ := exists_of_refDecode_truncated h
  obtain ⟨hp, hout⟩ := Du.feed_of_refDecode (d := Du.start y) rfl hx
  obtain ⟨-, -, -, hoff⟩ := (Du.start y).feed_frame (y.take i)
  have hend : Du.decoded y = (({ (Du.start y).feed (y.take i) with
      blkOff := ((Du.start y).feed (y.take i)).inOff }).advance (1 + t.length)).raiseTruncated
        ((Du.start y).feed (y.take i)).inOff := by
    rw [← Du.feed_trunc_afterFinish hp ht, ← Du.feed_append, ← hy, Du.decoded]
  rw [hend]
  exact ⟨rfl, rfl, hoff.trans ((Nat.zero_add _).trans hi), hx.trans (congrArg _ hout.symm)⟩

theorem Du.decoded_result (y : List Byte) : (Du.decoded y).result = some (refDecode y) := by
  cases h : refDecode y with
  | ok x =>
    obtain ⟨hs, hout, -⟩ := Du.decoded_of_ok h
    rw [Du.result_done hs, hout]
  | truncated i =>
    obtain ⟨hs, -, herr, -⟩ := Du.decoded_of_truncated h
    rw [Du.result_error hs, herr]

theorem Du.outBuf_prefix_decoded (y : List Byte) (m : Nat) :
    ((Du.start y).feed (y.take m)).outBuf <+: (Du.decoded y).outBuf := by
  obtain ⟨-, -, -, hout, -⟩ := ((Du.start y).feed y).afterFinish_frame
  have hsplit : (Du.start y).feed y = ((Du.start y).feed (y.take m)).feed (y.drop m) := by
    rw [← Du.feed_append, List.take_append_drop]
  rw [Du.decoded, hout, hsplit]
  exact Du.outBuf_prefix_feed _ _

section
variable {k : Nat} {s : State} {d : Du}

/-- The bytes up to the end of the input and the finish step, one turn each. -/
theorem unitTurns_du_finish {bs : List Byte} (hd : s.du? k = some d) (hs : d.status = .busy)
    (hlen : d.inLen = d.inBuf.length) (hbs : d.inBuf.drop d.inOff = bs) (hi : d.inOff + bs.length = d.inLen) :
    unitTurns { inst := k, kind := .du } (bs.length + 1) s = .next (s.setDu k (d.feed bs).afterFinish) := by
  obtain ⟨hs', -, hlen', hoff'⟩ := d.feed_frame bs
  have hend : (d.feed bs).inOff = (d.feed bs).inLen := hoff'.trans (hi.trans hlen'.symm)
  rw [unitTurns_succ' (unitTurns_du_feed hd hs hlen (hbs ▸ List.prefix_refl _)),
    turn_du_finish (State.setDu_du_same hd _) (hs'.trans hs) hend, State.setDu_setDu]

/-- The first `m` turns after DECODE(y) run the byte steps on the first `m` bytes of `y`. -/
theorem unitTurns_du_start {m : Nat} {y : List Byte} (hd : s.du? k = some d) (hm : m ≤ y.length) :
    unitTurns { inst := k, kind := .du } m (s.setDu k (Du.start y)) = .next (s.setDu k ((Du.start y).feed (y.take m))) := by
  have h := unitTurns_du_feed (State.setDu_du_same hd (Du.start y)) rfl rfl (List.take_prefix m y)
  rwa [List.length_take_of_le hm, State.setDu_setDu] at h

/-- After DECODE(y), one turn for each byte and one for the finish step end the operation. -/
theorem unitTurns_du_whole (hd : s.du? k = some d) (y : List Byte) :
    unitTurns { inst := k, kind := .du } (y.length + 1) (s.setDu k (Du.start y)) = .next (s.setDu k (Du.decoded y)) := by
  rw [unitTurns_du_finish (bs := y) (State.setDu_du_same hd (Du.start y)) rfl rfl rfl (Nat.zero_add _), State.setDu_setDu,
    Du.decoded]

/-! ## The admission of DECODE (R74) -/

/-- An admitted DECODE (R74). -/
theorem exec_decode_admitted {y : List Byte} (hd : s.du? k = some d) (hs : d.status ≠ .busy)
    (hy : y.length ≤ maxLength s.offsetWidth) (hout : (producedOutput y).length ≤ maxLength s.offsetWidth) :
    exec (.decode k y) s = .next (s.setDu k (Du.start y)) :=
  withDu_of_next hd (by rw [startRefusal_eq_none.mpr ⟨hs, hy, producedLength_eq y ▸ hout⟩])

theorem exec_decode_refused {y : List Byte} (hd : s.du? k = some d)
    (h : ¬(d.status ≠ .busy ∧ y.length ≤ maxLength s.offsetWidth ∧
      (producedOutput y).length ≤ maxLength s.offsetWidth)) :
    ∃ r, exec (.decode k y) s = .refused r := by
  rw [← producedLength_eq] at h
  obtain ⟨r, hr⟩ := Option.ne_none_iff_exists'.mp (mt startRefusal_eq_none.mp h)
  exact ⟨r, withDu_of_refused hd (by rw [hr])⟩

end

/-! ## The unit's steps as rows (R75 to R82) -/

/-- A byte step whose byte is there answers what it does on that byte. -/
theorem Du.onByte_of_read {d d' : Du} {b : Byte} {f : Byte → Outcome Du} (hs : d.status = .busy) (hi : d.inOff < d.inLen)
    (hb : inRead d.inBuf d.inOff = some b) (hf : f b = .next d') : d.onByte f = .next d' :=
  Du.onByte_eq_next.mpr ⟨hs, hi, b, hb, hf⟩

/-- Under the invariant a byte step is refused where its unit has no byte step to take, or is refused on the byte there. -/
theorem Du.onByte_refused {w : Nat} {d : Du} {f : Byte → Outcome Du} (hin : InputInv w d.inBuf d.inLen d.inOff)
    (h : ∀ b, d.status = .busy → d.inOff < d.inLen → inRead d.inBuf d.inOff = some b → f b = .refused .notSelected) :
    d.onByte f = .refused .notSelected := by
  unfold Du.onByte
  split_ifs with hsel
  · obtain ⟨hs, hi⟩ := hsel
    obtain ⟨-, b, hb⟩ := hin.byte_or_end.resolve_right hi.ne
    rw [hb]
    exact h b hs hi hb
  · rfl

theorem Phase.lenIndex_isSome {p : Phase} : p.lenIndex.isSome ↔ p ≠ .head ∧ p ≠ .val := by
  cases p <;> simp [Phase.lenIndex]

/-- DU.LEN by its phases: in each of the four, one more byte of the length (R78). -/
theorem exec_duLen {k : Nat} {s : State} {d : Du} {b : Byte} (hd : s.du? k = some d) (hs : d.status = .busy)
    (hi : d.inOff < d.inLen) (hb : inRead d.inBuf d.inOff = some b) (hp : d.phase ≠ .head) (hv : d.phase ≠ .val) :
    exec (.duLen k) s = .next (s.setDu k
      ({ d with lenAcc := d.lenAcc * 256 + b.setWidth 32, phase := d.phase.afterLen }.advance 1)) := by
  obtain ⟨j, hj⟩ := Option.isSome_iff_exists.mp (Phase.lenIndex_isSome.mpr ⟨hp, hv⟩)
  exact withDu_of_next hd (Du.onByte_of_read hs hi hb (by rw [hj]))

/-- One more byte does not overflow an accumulator of at most three bytes (R78). -/
theorem lenAcc_append_toNat {a : Word32} (b : Byte) {j : Nat} (hj : j < 4) (h : a.toNat < 2 ^ (8 * j)) :
    (a * 256 + b.setWidth 32).toNat = a.toNat * 256 + b.toNat := by
  have hb := b.isLt
  have h256 : (256 : Word32).toNat = 256 := rfl
  have hle : 2 ^ (8 * j) ≤ 2 ^ 24 := Nat.pow_le_pow_right two_pos (by omega)
  simp only [BitVec.toNat_add, BitVec.toNat_mul, BitVec.toNat_setWidth, h256]
  omega

/-! ## The enabled step (R75) -/

section
variable {k : Nat} {d : Du}

theorem Du.enabled_byte (hs : d.status = .busy) (hi : d.inOff < d.inLen) : d.enabled k = some (d.byteInstr k) :=
  (if_pos hs).trans (if_pos hi)

theorem Du.byteInstr_lit (hp : d.phase = .head) (hb : inRead d.inBuf d.inOff ≠ some Config.sentinel) :
    d.byteInstr k = .duLit k := by
  rw [Du.byteInstr, hp]
  exact if_neg hb

theorem Du.byteInstr_sent (hp : d.phase = .head) (hb : inRead d.inBuf d.inOff = some Config.sentinel) :
    d.byteInstr k = .duSent k := by
  rw [Du.byteInstr, hp]
  exact if_pos hb

theorem Du.byteInstr_len (hp : d.phase ≠ .head) (hv : d.phase ≠ .val) : d.byteInstr k = .duLen k := by
  cases h : d.phase with
  | head => exact absurd h hp
  | val => exact absurd h hv
  | len0 | len1 | len2 | len3 => rw [Du.byteInstr, h]

theorem Du.byteInstr_val (hv : d.phase = .val) : d.byteInstr k = .duVal k := by rw [Du.byteInstr, hv]

theorem Du.enabled_finishOk (hs : d.status = .busy) (hi : d.inOff = d.inLen) (hp : d.phase = .head) :
    d.enabled k = some (.duFinishOk k) :=
  (if_pos hs).trans ((if_neg hi.not_lt).trans ((if_pos hi).trans (if_pos hp)))

theorem Du.enabled_finishTrunc (hs : d.status = .busy) (hi : d.inOff = d.inLen) (hp : d.phase ≠ .head) :
    d.enabled k = some (.duFinishTrunc k) :=
  (if_pos hs).trans ((if_neg hi.not_lt).trans ((if_pos hi).trans (if_neg hp)))

theorem Du.enabled_quiet (hs : d.status ≠ .busy) : d.enabled k = none := if_neg hs

/-- A unit with an enabled step is BUSY. -/
theorem Du.busy_of_enabled {i : Instr} (h : d.enabled k = some i) : d.status = .busy :=
  by_contra fun hs => nomatch h.symm.trans (Du.enabled_quiet hs)

variable {s : State}

/-- Under the invariant the enabled step completes. -/
theorem exec_enabled_completes (hd : s.du? k = some d) (hinv : d.Inv s.offsetWidth) {i : Instr}
    (h : d.enabled k = some i) : ∃ t, exec i s = .next t := by
  obtain ⟨d', hturn, -⟩ := turn_du_progress hd hinv (Du.busy_of_enabled h)
  exact ⟨_, (turn_du hd h).symm.trans hturn⟩

/-- Under the invariant each of the unit's six steps is refused where it is not the enabled one. -/
theorem exec_not_enabled_refused (hd : s.du? k = some d) (hin : InputInv s.offsetWidth d.inBuf d.inLen d.inOff) {i : Instr}
    (hi : i ∈ [Instr.duLit k, .duSent k, .duLen k, .duVal k, .duFinishOk k, .duFinishTrunc k])
    (h : d.enabled k ≠ some i) : exec i s = .refused .notSelected := by
  have byteStep {f : Byte → Outcome Du}
      (hf : ∀ b, d.byteInstr k ≠ i → inRead d.inBuf d.inOff = some b → f b = .refused .notSelected) :
      d.onByte f = .refused .notSelected :=
    Du.onByte_refused hin fun b hs hlt hb => hf b (fun hsel => h ((Du.enabled_byte hs hlt).trans (congrArg some hsel))) hb
  simp only [List.mem_cons, List.not_mem_nil, or_false] at hi
  obtain rfl | rfl | rfl | rfl | rfl | rfl := hi
  · exact withDu_of_refused hd (byteStep fun b hsel hb => if_neg fun ⟨hp, hbs⟩ =>
      hsel (Du.byteInstr_lit hp fun hsent => hbs (Option.some.inj (hb.symm.trans hsent))))
  · exact withDu_of_refused hd (byteStep fun b hsel hb => if_neg fun ⟨hp, hbs⟩ =>
      hsel (Du.byteInstr_sent hp (hb.trans (congrArg some hbs))))
  · refine withDu_of_refused hd (byteStep fun b hsel _ => ?_)
    have hnone : d.phase.lenIndex = none := Option.not_isSome_iff_eq_none.mp fun hlen =>
      have ⟨hp, hv⟩ := Phase.lenIndex_isSome.mp hlen
      hsel (Du.byteInstr_len hp hv)
    rw [hnone]
  · exact withDu_of_refused hd (byteStep fun b hsel _ => if_neg fun hv => hsel (Du.byteInstr_val hv))
  · exact withDu_of_refused hd (if_neg fun ⟨hs, hend, hp⟩ => h (Du.enabled_finishOk hs hend hp))
  · exact withDu_of_refused hd (if_neg fun ⟨hs, hend, hp⟩ => h (Du.enabled_finishTrunc hs hend hp))

end

/-! ## The reference function by index (R83) -/

theorem drop_eq_cons {y : List Byte} {i : Nat} {b : Byte} (h : y[i]? = some b) : y.drop i = b :: y.drop (i + 1) := by
  obtain ⟨hi, rfl⟩ := List.getElem?_eq_some_iff.mp h
  exact List.drop_eq_getElem_cons hi

/-! ## The statements -/

/-- Settles O41: the byte steps on a unit's bytes, with the finish step behind a truncated run-block, leave the unit as the whole
instruction does. -/
theorem wireUnitIsItsByteSteps : Obligations.WireUnitIsItsByteSteps := by
  intro k s d hd hs hp hlen
  have left {bs : List Byte} (h : d.inBuf.drop d.inOff = bs) : bs.length = d.inLen - d.inOff := by
    rw [← h, List.length_drop, hlen]
  refine ⟨fun l0 l1 l2 l3 v rest h => ?_, fun b rest hb h => ?_, fun t ht h => ?_⟩
  · have hi := left h
    simp only [List.length_cons] at hi
    have hprefix : [Config.sentinel, l0, l1, l2, l3, v] <+: d.inBuf.drop d.inOff := ⟨rest, h.symm⟩
    rw [exec_run hd hs hp (by rw [Config.blockLen]; omega)]
    exact (unitTurns_du_feed hd hs hlen hprefix).trans (by rw [Du.feed_run hp, Du.feed])
  · have hi := left h
    rw [List.length_cons] at hi
    have hprefix : [b] <+: d.inBuf.drop d.inOff := ⟨rest, h.symm⟩
    rw [exec_lit hd hb hs hp (by omega)]
    exact (unitTurns_du_feed hd hs hlen hprefix).trans (by rw [Du.feed_lit hp hb, Du.feed])
  · have hi := left h
    rw [List.length_cons] at hi
    rw [exec_truncated hd ht hs hp (by omega), ← Du.feed_trunc_afterFinish hp ht]
    exact unitTurns_du_finish hd hs hlen h (by rw [List.length_cons]; omega)

/-- Settles O43: the byte steps on the units before the first truncated one append what they decode to, and the finish step tells
the two ends apart by the phase. -/
theorem decodeOperation : Obligations.DecodeOperation := by
  intro k y s d hd hs hy hout
  obtain ⟨hbuf, hlen, hoff, hp, hacc⟩ := Du.decoded_frame y
  refine ⟨_, _, Du.decoded y, exec_decode_admitted hd hs hy hout, unitTurns_du_whole hd y, rfl, hbuf, hlen, hoff, hp, hacc,
    Du.decoded_result y, fun x => Du.decoded_of_ok, fun i => Du.decoded_of_truncated, fun m hm => ?_⟩
  obtain ⟨hstatus, -, -, hoff⟩ := (Du.start y).feed_frame (y.take m)
  refine ⟨_, _, unitTurns_du_start hd hm, State.setDu_du_same hd _, hstatus, ?_, Du.outBuf_prefix_decoded y m⟩
  rw [hoff, List.length_take_of_le hm]
  exact Nat.zero_add m

/-- Settles O15: each equation of `dec` is its case on the head of what is left from that index on. -/
theorem decodeReferenceEquations : Obligations.DecodeReferenceEquations := by
  intro y
  refine ⟨rfl, rfl, fun i acc => ⟨fun hi => ?_, fun b hget hb => ?_, fun hget hlen => ?_,
    fun l0 l1 l2 l3 v hget h0 h1 h2 h3 h4 => ?_⟩⟩
  · rw [List.drop_of_length_le hi.ge, dec_nil]
  · rw [drop_eq_cons hget, dec_lit i acc hb]
  · rw [drop_eq_cons hget]
    exact dec_trunc i acc (by rw [List.length_drop]; omega)
  · rw [drop_eq_cons hget, drop_eq_cons h0, drop_eq_cons h1, drop_eq_cons h2, drop_eq_cons h3, drop_eq_cons h4]
    exact dec_run i acc l0 l1 l2 l3 v _

/-- Settles O22, by the two cases of the admission. -/
theorem decodeStarts : Obligations.DecodeStarts := by
  intro k y s d hd
  refine ⟨exec_decode_admitted hd, fun h => exec_decode_refused hd fun ⟨hs, hy, hout⟩ => ?_⟩
  obtain hbusy | hlong | hlong := h
  · exact hs hbusy
  · exact Nat.not_lt_of_le hy hlong
  · exact Nat.not_lt_of_le hout hlong

/-- Settles O35: the byte tells which of the two steps' guards is met. -/
theorem duHeadByteResult : Obligations.DuHeadByteResult := by
  intro k b s d hd hs hi hb hp
  exact ⟨fun hne => withDu_of_next hd (Du.onByte_of_read hs hi hb (if_pos ⟨hp, hne⟩)),
    fun heq => withDu_of_next hd (Du.onByte_of_read hs hi hb (if_pos ⟨hp, heq⟩))⟩

/-- Settles O36: the four phases of the table are those of DU.LEN, each followed by the next and holding fewer than four bytes. -/
theorem duLenResult : Obligations.DuLenResult := by
  intro k b s d hd hs hi hb p q j hrow hdp
  have table : ∀ r ∈ [(Phase.len0, Phase.len1, 0), (.len1, .len2, 1), (.len2, .len3, 2), (.len3, .val, 3)],
      r.1 ≠ .head ∧ r.1 ≠ .val ∧ r.1.afterLen = r.2.1 ∧ r.2.2 < 4 := by decide
  obtain ⟨hp, hv, hnext, hj⟩ : p ≠ .head ∧ p ≠ .val ∧ p.afterLen = q ∧ j < 4 := table _ hrow
  subst hdp hnext
  exact ⟨exec_duLen hd hs hi hb hp hv, lenAcc_append_toNat b hj, lenAcc_be32⟩

/-- Settles O37: in VAL the step's guard is met. -/
theorem duValResult : Obligations.DuValResult := by
  intro k b s d hd hs hi hb hp
  exact withDu_of_next hd (Du.onByte_of_read hs hi hb (if_pos hp))

/-- Settles O38: the phase tells which of the two steps' guards is met, and inside a run-block it tells how far the program counter
is past the sentinel. -/
theorem duFinishResult : Obligations.DuFinishResult := by
  intro k s d hd hs hi
  refine ⟨fun hp => withDu_of_next hd (if_pos ⟨hs, hi, hp⟩), fun hp => withDu_of_next hd (if_pos ⟨hs, hi, hp⟩),
    fun hinv p j hrow hdp => ?_⟩
  have table : ∀ r ∈ [(Phase.len0, 0), (.len1, 1), (.len2, 2), (.len3, 3), (.val, 4)],
      r.1 ≠ .head ∧ r.1.blockPos = r.2 + 1 := by decide
  obtain ⟨hp, hpos⟩ : p ≠ .head ∧ p.blockPos = j + 1 := table _ hrow
  subst hdp
  obtain ⟨-, -, hblock, -⟩ := Du.inv_iff.mp hinv
  have hoff := (hblock hp).inOff
  omega

/-- Settles O39: the enabled step is read off the phase and the byte, it completes, and every other step's guard fails. -/
theorem duEnabledStep : Obligations.DuEnabledStep := by
  intro k s d hd hinv
  have ⟨hin, _⟩ := hinv
  rw [enabledStep_du hd]
  refine ⟨fun hs hlt => ?_, fun hs hge => ?_, Du.enabled_quiet, fun i => exec_enabled_completes hd hinv,
    fun i => exec_not_enabled_refused hd hin⟩
  · rw [Du.enabled_byte hs hlt]
    exact ⟨fun hp hb => congrArg some (Du.byteInstr_lit hp hb), fun hp hb => congrArg some (Du.byteInstr_sent hp hb),
      fun hp hv => congrArg some (Du.byteInstr_len hp hv), fun hv => congrArg some (Du.byteInstr_val hv)⟩
  · have hend : d.inOff = d.inLen := hin.byte_or_end.resolve_left fun ⟨hlt, _⟩ => hge hlt
    exact ⟨Du.enabled_finishOk hs hend, Du.enabled_finishTrunc hs hend⟩

end Sys2Proof.Machine
end

section
/-! Exceptions (60_exceptions.md). The layer first: when a start command is refused, and which effects take a unit to ERROR. Then
the statements. -/

namespace Sys2Proof.Machine

/-! ## Refused start commands (R91) -/

/-- BUSY is checked before the lengths (log 6). -/
theorem startRefusal_of_busy {w a b : Nat} {st : Status} (h : st = .busy) :
    startRefusal w st a b = some .startWhileBusy := if_pos h

/-- ENCODE has no transition exactly where its admission fails (R63, R91). -/
theorem exec_encode_refused_iff {k : Nat} {x : List Byte} {s : State} {e : Eu} (he : s.eu? k = some e) :
    (∃ r, exec (.encode k x) s = .refused r) ↔
      e.status = .busy ∨ maxLength s.offsetWidth < x.length ∨ maxLength s.offsetWidth < (refEncode x).length := by
  obtain ⟨-, hrefused⟩ := encodeStarts k x s e he
  refine ⟨fun ⟨r, hr⟩ => ?_, hrefused⟩
  by_contra hfit
  push Not at hfit
  obtain ⟨hs, hx, hy⟩ := hfit
  cases hr.symm.trans (exec_encode he hs hx hy)

/-- DECODE has no transition exactly where its admission fails (R74, R91). -/
theorem exec_decode_refused_iff {k : Nat} {y : List Byte} {s : State} {d : Du} (hd : s.du? k = some d) :
    (∃ r, exec (.decode k y) s = .refused r) ↔
      d.status = .busy ∨ maxLength s.offsetWidth < y.length ∨ maxLength s.offsetWidth < (producedOutput y).length := by
  obtain ⟨-, hrefused⟩ := decodeStarts k y s d hd
  refine ⟨fun ⟨r, hr⟩ => ?_, hrefused⟩
  by_contra hfit
  push Not at hfit
  obtain ⟨hs, hy, hout⟩ := hfit
  cases hr.symm.trans (exec_decode_admitted hd hs hy hout)

/-! ## Who raises TRUNCATED (R89, R90) -/

theorem EuEffect.status_ne_error {w k : Nat} {e e' : Eu} {i : Instr} (h : EuEffect w k e i e')
    (he : e.status ≠ .error) : e'.status ≠ .error := by
  obtain hst | ⟨hst, -⟩ | ⟨hst, -⟩ | ⟨hst, -⟩ := h.status_cases
  · exact hst ▸ he
  all_goals simp [hst]

/-- An effect that takes a Decoder Unit to ERROR is the truncating finish step, inside a run-block, or a whole TRUNCATED unit, at a
unit boundary; either ends at the end of the input and reports the sentinel's index. -/
theorem DuEffect.raises_truncated {w k : Nat} {d d' : Du} {i : Instr} (h : DuEffect w k d i d')
    (hd : d.status ≠ .error) (hd' : d'.status = .error) :
    d'.inOff = d'.inLen ∧ d'.errCode = .truncated ∧ d'.outBuf = d.outBuf ∧ d'.errOffset = d'.blkOff ∧
      ((i = .duFinishTrunc k ∧ d.phase ≠ .head) ∨
        ∃ tail, i = .truncated k tail ∧ d.phase = .head ∧ tail.length < 5) := by
  cases h with
  | finishTrunc _ hi hp => exact ⟨hi, rfl, rfl, rfl, .inl ⟨rfl, hp⟩⟩
  | wireTruncated ht _ hp hi => exact ⟨(Nat.add_assoc ..).symm.trans hi, rfl, rfl, rfl, .inr ⟨_, rfl, hp, ht⟩⟩
  | decode | reset | finishOk => cases hd'
  | lit | sent | len | val | wireRun | wireLit => exact absurd hd' hd

/-! ## The statements -/

/-- Settles O23, by the admission of each command, which looks at BUSY first. -/
theorem startCommandRefusals : Obligations.StartCommandRefusals := by
  intro k x s e d he hd
  exact ⟨fun hs => withEu_of_refused he (by rw [startRefusal_of_busy hs]),
    fun hs => withDu_of_refused hd (by rw [startRefusal_of_busy hs]),
    exec_encode_refused_iff he, exec_decode_refused_iff hd⟩

/-- Settles O50: an instruction leaves a unit, has its effect on it or resets it, and only two effects write ERROR. -/
theorem onlyTruncationRaises : Obligations.OnlyTruncationRaises := by
  intro i s t k e e' d d' h he he' hd hd'
  refine ⟨fun hne => ?_, fun hne herr => ?_⟩
  · obtain rfl | heff | ⟨-, rfl⟩ := exec_eu_cases h he he'
    · exact hne
    · exact heff.status_ne_error hne
    · exact nofun
  · obtain rfl | heff | ⟨-, rfl⟩ := exec_du_cases h hd hd'
    · exact absurd herr hne
    · exact heff.raises_truncated hne herr
    · cases herr

end Sys2Proof.Machine
end

section
/-! Reset and hazards (70_reset_and_hazards.md). The layer first: one law per form of RESET. Then the statement. -/

namespace Sys2Proof.Machine

/-! ## RESET as an instruction (R103): the unit's status is not looked at -/

theorem exec_reset_eu {k : Nat} {s : State} {e : Eu} (he : s.eu? k = some e) :
    exec (.reset (.one { inst := k, kind := .eu })) s = .next (s.setEu k Eu.reset) :=
  withEu_of_next (f := fun _ => .next Eu.reset) he rfl

theorem exec_reset_du {k : Nat} {s : State} {d : Du} (hd : s.du? k = some d) :
    exec (.reset (.one { inst := k, kind := .du })) s = .next (s.setDu k Du.reset) :=
  withDu_of_next (f := fun _ => .next Du.reset) hd rfl

theorem exec_reset_powerOn (s : State) : exec (.reset .powerOn) s = .next s.powerOn := rfl

/-! ## The statement -/

/-- Settles O24: RESET writes the reset values into one unit, power-on reset into every unit. -/
theorem resetResult : Obligations.ResetResult := by
  intro k s e d he hd
  exact ⟨⟨_, exec_reset_eu he⟩, exec_reset_du hd, s.powerOn, _, exec_reset_powerOn s, State.powerOn_length s,
    State.powerOn_eu he, State.powerOn_du hd⟩

end Sys2Proof.Machine
end
